-- ==== Sys2Proof/Word.lean ====
section
/-! DEFINITION. The words of the block: the widths of its ports and of the command bundle (10_state.md R17,
30_encoding.md R58). -/

namespace Sys2Proof

/-- A byte: a port `din`, a location of `FB`, an element of `SINK`. -/
abbrev Byte := BitVec 8

/-- A 16-bit value: `ACC`, a coordinate, an angle. -/
abbrev Half := BitVec 16

/-- A 32-bit value: the timestamp operand. -/
abbrev Word := BitVec 32

/-- The 107-bit command bundle `CMD` (R58). -/
abbrev CmdWord := BitVec 107

/-- The seven ports of the bundle, one field per port (R17, R58). -/
structure CmdPorts where
  op  : BitVec 3
  din : Byte
  ts  : Word
  x   : Half
  y   : Half
  z   : Half
  ang : Half
  deriving DecidableEq, Repr

/-- Everything the host drives at one step: the reset request, which is no part of the bundle, and the bundle's
ports (R58, 70_reset_and_hazards.md R170). -/
structure PortsIn where
  rst : Bool
  cmd : CmdPorts
  deriving DecidableEq, Repr

end Sys2Proof
end

