-- ==== Sys2Proof/Config.lean ====
section
/-! DEFINITION. What the implementation fixes (00_scope.md R4) and the two values the spec leaves free
(93_implementation_defined.md V1, V2). -/

namespace Sys2Proof

/-- The two parameters the spec asks a model to take as configuration fields (R4). They are numbers, so that a value
outside 0 to 255 can be written down and refused (`Config.wellFormed`, R8). -/
structure Config where
  address : Int
  flags   : Int
  deriving DecidableEq, Repr

/-- This hardware: `ADDRESS = 0x0A`, `FLAGS = 0x00` (R4). -/
def Config.hardware : Config where
  address := 10
  flags := 0

/-- FREE VALUE (V1, log entry 1; safe): what location `a` of `FB` shows while nothing has written it since reset. The
first argument is the number of bytes emitted so far, so that a later read may show another value. -/
opaque Config.unwrittenByte : Nat → Nat → Byte

/-- FREE VALUE (V2, log entry 2; safe): what `dout` shows while no frame is pending, "any value, possibly different at
each read". The argument is the number of the read: every read of a run has its own. -/
opaque Config.idleDout : Nat → Byte

end Sys2Proof
end

