-- ==== Sys2Proof/Syntax.lean ====
section
/-! DEFINITION. The commands of the block: one constructor per row of the opcode map (30_encoding.md R60). -/

namespace Sys2Proof

/-- A decoded bundle: the command of its code with the fields its format carries (R59, R60). The three reserved codes
are rows of the map without being commands (R62). -/
inductive Instr where
  | nop
  | crcInit
  | crcByte (din : Byte)
  | frmEncode (ts : Word) (x y z ang : Half)
  | frmNext
  | reserved5
  | reserved6
  | reserved7
  deriving DecidableEq, Repr

end Sys2Proof
end

