-- ==== Sys2Proof/WellFormed.lean ====
section
/-! DEFINITION. What a host may present: a command (not a reserved code) to a legal configuration. The operand fields
need no check, every value of every field is legal (30_encoding.md R62) and the types carry the widths. -/

namespace Sys2Proof

/-- The instruction is one of the five commands, not a reserved code (R62). -/
def Instr.wellFormed : Instr → Bool
  | .nop => true
  | .crcInit => true
  | .crcByte _ => true
  | .frmEncode _ _ _ _ _ => true
  | .frmNext => true
  | .reserved5 => false
  | .reserved6 => false
  | .reserved7 => false

/-- `ADDRESS` and `FLAGS` are within 0 to 255 (00_scope.md R4); any other pair is `BadConfig` (R8). -/
def Config.wellFormed (c : Config) : Bool :=
  decide (0 ≤ c.address) && decide (c.address ≤ 255) && decide (0 ≤ c.flags) && decide (c.flags ≤ 255)

end Sys2Proof
end

