-- ==== Sys2Proof/Decode.lean ====
section
/-! DEFINITION. The decoder, total on all 2^107 bundles (30_encoding.md R61), and the encoder that spells every
instruction canonically (R59). -/

namespace Sys2Proof

/-- `CMD = {ang, z, y, x, ts, din, op}`, `ang` most significant (R58). -/
def CmdPorts.bundle (p : CmdPorts) : CmdWord :=
  p.ang ++ p.z ++ p.y ++ p.x ++ p.ts ++ p.din ++ p.op

/-- The port values a bundle stands for: `op` 2:0, `din` 10:3, `ts` 42:11, `x` 58:43, `y` 74:59, `z` 90:75,
`ang` 106:91 (R58). -/
def CmdPorts.ofBundle (w : CmdWord) : CmdPorts where
  op  := w.extractLsb' 0 3
  din := w.extractLsb' 3 8
  ts  := w.extractLsb' 11 32
  x   := w.extractLsb' 43 16
  y   := w.extractLsb' 59 16
  z   := w.extractLsb' 75 16
  ang := w.extractLsb' 91 16

/-- The opcode map (R60): the code alone selects the command, whose format says which ports carry meaning (R59). -/
def CmdPorts.decode (p : CmdPorts) : Instr :=
  match p.op.toFin with
  | 0 => .nop
  | 1 => .crcInit
  | 2 => .crcByte p.din
  | 3 => .frmEncode p.ts p.x p.y p.z p.ang
  | 4 => .frmNext
  | 5 => .reserved5
  | 6 => .reserved6
  | 7 => .reserved7

/-- Decoding of a bundle (R61). -/
def decode (w : CmdWord) : Instr := (CmdPorts.ofBundle w).decode

/-- All ports at zero: a host that drives nothing (R60). -/
def CmdPorts.zero : CmdPorts where
  op := 0
  din := 0
  ts := 0
  x := 0
  y := 0
  z := 0
  ang := 0

/-- The canonical port values of an instruction: its code, its fields, 0 in every ignored port (R59, R60). -/
def Instr.ports : Instr → CmdPorts
  | .nop => { CmdPorts.zero with op := 0 }
  | .crcInit => { CmdPorts.zero with op := 1 }
  | .crcByte b => { CmdPorts.zero with op := 2, din := b }
  | .frmEncode ts x y z ang => { op := 3, din := 0, ts := ts, x := x, y := y, z := z, ang := ang }
  | .frmNext => { CmdPorts.zero with op := 4 }
  | .reserved5 => { CmdPorts.zero with op := 5 }
  | .reserved6 => { CmdPorts.zero with op := 6 }
  | .reserved7 => { CmdPorts.zero with op := 7 }

/-- The canonical bundle of an instruction (R59). -/
def encode (i : Instr) : CmdWord := i.ports.bundle

/-- The ports that a number stands for: its low `nbits` bits, numbered as the opcode table numbers them. A bit above
106 belongs to no port and is not seen (DESIGN CHOICE, log entry 8; safe). -/
def CmdPorts.ofTableWord (nbits w : Nat) : CmdPorts :=
  CmdPorts.ofBundle (BitVec.ofNat 107 (w % 2 ^ nbits))

/-- The instruction the decoder reads from a table row's bits. No bundle is rejected here: the reserved codes decode to
the reserved rows, which `exec` refuses by name (R61, R62). -/
def decodeTableWord (nbits w : Nat) : Option Instr := some (CmdPorts.ofTableWord nbits w).decode

end Sys2Proof
end

