-- ==== Sys2Proof/Machine/Bytes.lean ====
section
/-! DEFINITION. Integers, bit vectors and byte sequences: `trunc_N`, `le_k`, `from_le`, `as_signed_N` (00_scope.md
section 6 and R7). -/

namespace Sys2Proof.Machine

/-- `trunc_N(v)`: the residue of an integer modulo 2^N (R7). It never fails. -/
def trunc (n : Nat) (v : Int) : BitVec n := BitVec.ofInt n v

/-- `le_k(v)`: `k` bytes, least significant first; byte `j` is bits `8j+7` to `8j` of `v`. -/
def leBytes : Nat → Nat → List Byte
  | 0, _ => []
  | k + 1, v => BitVec.ofNat 8 v :: leBytes k (v >>> 8)

/-- `from_le(s)`: the inverse of `le_k`, the first byte least significant. -/
def fromLe : List Byte → Nat
  | [] => 0
  | b :: s => b.toNat + 256 * fromLe s

/-- `as_signed_N(r)`: `r` if `r < 2^(N-1)`, else `r - 2^N`. -/
def asSigned (n r : Nat) : Int := if r < 2 ^ (n - 1) then (r : Int) else (r : Int) - 2 ^ n

end Sys2Proof.Machine
end

