-- ==== Sys2Proof/Machine/Constants.lean ====
section
/-! DEFINITION. The hardwired constants (00_scope.md R2, R3; 10_state.md R19). None is configurable, none can be
written. -/

namespace Sys2Proof.Machine

/-- `CRC_POLY` (R2). -/
def crcPoly : Half := 0xA001

/-- `CRC_INIT` (R2): the accumulator before the first byte. -/
def crcInit : Half := 0xFFFF

/-- `CRC_ITER` (R2): shift iterations per byte. -/
def crcIter : Nat := 8

/-- `HEADER` in transmission order (R3). -/
def header : List Byte := [0xFF, 0x47, 0x01, 0x00, 0x10]

/-- `HEADER_LEN` (R3). -/
def headerLen : Nat := 5

/-- `PAYLOAD_LEN` (R3). -/
def payloadLen : Nat := 16

/-- `CRC_LEN` (R3). -/
def crcLen : Nat := 2

/-- `CRC_SPAN` (R3): the leading bytes the CRC covers. -/
def crcSpan : Nat := headerLen + payloadLen

/-- `FRAME_LEN` (R3): the packet's length and the number of locations of `FB` (R11). -/
def frameLen : Nat := headerLen + payloadLen + crcLen

/-- `ANGLE_MASK` (R3). -/
def angleMask : Half := 0x0FFF

/-- `RESERVED` (R3), as the value `FRM.ENCODE` writes at offset 19 (41_framer.md R110). -/
def reservedValue : Half := 0x0000

end Sys2Proof.Machine
end

