-- ==== Sys2Proof/Machine/State.lean ====
section
/-! DEFINITION. The state of the block (10_state.md R10 to R14, R20, R24) and the reasons a step can stop
(60_exceptions.md R141). -/

namespace Sys2Proof.Machine

/-- Why the machine could stop with a fault. The block itself raises nothing (R140): this type serves the frame buffer
operations of 20_memory.md only. -/
inductive Fault where
  /-- Raised by `memRead` and `memWrite` for an access outside the domain R31 and R32 give them (log entry 7). No command
  forms such an access (R30), so no step ends here. Safe: it stops where the spec defines nothing. -/
  | frameAddress (a n : Nat)
  deriving DecidableEq, Repr

/-- Why a step is refused (00_scope.md R8). A refusal ends the run, which is the mark R8 asks for (log entry 5). Safe:
nothing can be claimed of a refused run. -/
inductive Refusal where
  /-- Raised by an arm of `exec` whose instruction has no meaning yet; no arm raises it now. Safe. -/
  | notModelled (mnemonic : String)
  /-- Raised by the reserved codes 5, 6 and 7, in every state (42_misc.md R131). Safe. -/
  | reservedOp (code : BitVec 3)
  /-- Raised by `FRM.ENCODE` while a frame is pending (41_framer.md R110). Safe. -/
  | frameBusy
  /-- Raised before any step for `ADDRESS` or `FLAGS` outside 0 to 255 (00_scope.md R4, R8). Safe. -/
  | badConfig
  deriving DecidableEq, Repr

/-- The frame buffer as data: the locations that have been written since reset, addresses rising (20_memory.md R30). An
unlisted location holds no value (93_implementation_defined.md V1). -/
abbrev Memory := List Host.Cell

/-- The machine. `acc`, `fb` and `idx` are the stored state of the block (R14); `sink` is the history of R20; `inputs` is
the model's own field (log entry 3): what the host will drive on the input ports, one entry per step. -/
structure State where
  /-- `ACC` (R10). -/
  acc    : Half
  /-- `FB` (R11). -/
  fb     : Memory
  /-- `IDX`, legal values 0 to 23 only (R12). -/
  idx    : Fin 24
  /-- `SINK`, oldest byte first (R20). -/
  sink   : List Byte
  /-- The input ports at the coming steps, the next step first (R17). -/
  inputs : List PortsIn
  deriving DecidableEq, Repr

/-- The state right after reset at the start of a run (R24): `FB` holds no value, `SINK` is empty, and nothing is
presented yet. -/
def State.reset : State where
  acc    := 0xFFFF
  fb     := []
  idx    := 23
  sink   := []
  inputs := []

def State.setAcc (s : State) (v : Half) : State := { s with acc := v }

def State.setFb (s : State) (m : Memory) : State := { s with fb := m }

def State.setIdx (s : State) (i : Fin 24) : State := { s with idx := i }

def State.setInputs (s : State) (ps : List PortsIn) : State := { s with inputs := ps }

/-- `emit(b)`: append `b` to `SINK` (R20). -/
def State.emit (s : State) (b : Byte) : State := { s with sink := s.sink ++ [b] }

end Sys2Proof.Machine
end

