-- ==== Sys2Proof/Machine/Ops.lean ====
section
/-! DEFINITION. The named operations on the frame buffer (20_memory.md R30 to R33) and on the whole state: the reset
step (70_reset_and_hazards.md R170). There is no operation that takes or returns from an exception, because the block has
no trap (60_exceptions.md R140, R143). -/

namespace Sys2Proof.Machine

/-- The byte at an address, if the location holds one. -/
def Memory.lookup : Memory → Nat → Option Byte
  | [], _ => none
  | (k, v) :: m, a => if k = a then some v else Memory.lookup m a

/-- Write one byte, keeping the addresses rising. -/
def Memory.put : Memory → Nat → Byte → Memory
  | [], a, b => [(a, b)]
  | (k, v) :: m, a, b =>
    if a < k then (a, b) :: (k, v) :: m
    else if k = a then (a, b) :: m
    else (k, v) :: Memory.put m a b

/-- The addresses rise strictly from `lo` on and stay below 23. -/
def Memory.wfFrom : Nat → Memory → Bool
  | _, [] => true
  | lo, (k, _) :: m => decide (lo ≤ k) && decide (k < frameLen) && Memory.wfFrom (k + 1) m

/-- The canonical form: addresses strictly rising and all of them locations of `FB` (R30). Nothing is excluded by value,
since an unlisted location reads as no value at all. -/
def Memory.wf (m : Memory) : Bool := Memory.wfFrom 0 m

/-- Write a byte sequence at ascending addresses. -/
def Memory.putBytes : Memory → Nat → List Byte → Memory
  | m, _, [] => m
  | m, a, b :: s => Memory.putBytes (Memory.put m a b) (a + 1) s

/-- `FB[a]`. A location nothing has written shows a free value (V1, log entry 1). -/
def State.frameByte (s : State) (a : Nat) : Byte :=
  (Memory.lookup s.fb a).getD (Config.unwrittenByte s.sink.length a)

/-- `FB[a..a+n)`. -/
def State.frameBytes (s : State) : Nat → Nat → List Byte
  | _, 0 => []
  | a, n + 1 => s.frameByte a :: s.frameBytes (a + 1) n

/-- The domain of `MemRead` and `MemWrite`: width 1, 2 or 4, all bytes within `FB` (R31, R32). -/
def accessOk (a n : Nat) : Bool :=
  (decide (n = 1) || decide (n = 2) || decide (n = 4)) && decide (a + n ≤ frameLen)

/-- `MemRead(a, n)`: little-endian, without side effect (R31, R33). -/
def memRead (s : State) (a n : Nat) : Except Fault (BitVec (8 * n)) :=
  if accessOk a n then .ok (BitVec.ofNat (8 * n) (fromLe (s.frameBytes a n)))
  else .error (.frameAddress a n)

/-- `MemWrite(a, n, v)`: the least significant byte to the lowest offset (R32, R33). -/
def memWrite (s : State) (a n : Nat) (v : BitVec (8 * n)) : Except Fault State :=
  if accessOk a n then .ok (s.setFb (Memory.putBytes s.fb a (leBytes n v.toNat)))
  else .error (.frameAddress a n)

/-- One `MemWrite` of a sequence: address, width, value. -/
structure Store where
  addr  : Nat
  width : Nat
  value : BitVec (8 * width)
  deriving DecidableEq, Repr

/-- Perform stores in order. -/
def memWriteAll : List Store → State → Except Fault State
  | [], s => .ok s
  | w :: ws, s =>
    match memWrite s w.addr w.width w.value with
    | .error f => .error f
    | .ok t => memWriteAll ws t

/-- The reset step (R170): `ACC <- 0xFFFF`, `IDX <- 23`, `FB` left with unspecified contents, that is holding no value
(R173, log entry 1); `SINK` is not touched, nothing is emitted. -/
def resetStep (s : State) : State := ((s.setAcc crcInit).setFb []).setIdx 23

/-- `refuse(ReservedOp(code))` (42_misc.md R131): the same in every state. -/
def refuseReserved (code : BitVec 3) (_ : State) : Host.Outcome State Fault Refusal :=
  .refused (.reservedOp code)

end Sys2Proof.Machine
end

