-- ==== Sys2Proof/Machine/Crc.lean ====
section
/-! DEFINITION. The CRC unit: its functions (40_crc.md R80 to R83) and its commands (R84, R85). -/

namespace Sys2Proof.Machine

/-- `crc_shift1` (R80): the test reads bit 0 before the shift. -/
def crcShift1 (a : Half) : Half := if a.getLsbD 0 then (a >>> 1) ^^^ crcPoly else a >>> 1

/-- `n` iterations of `crc_shift1`. -/
def crcShift : Nat → Half → Half
  | 0, a => a
  | n + 1, a => crcShift n (crcShift1 a)

/-- `crc_byte` (R81): one XOR into the low byte, then `CRC_ITER` iterations. -/
def crcByte (a : Half) (b : Byte) : Half := crcShift crcIter (a ^^^ b.setWidth 16)

/-- `crc_update` (R82): the first byte of the sequence first. -/
def crcUpdate : Half → List Byte → Half
  | a, [] => a
  | a, b :: rest => crcUpdate (crcByte a b) rest

/-- `CRC16` (R83): no final transformation. -/
def crc16 (s : List Byte) : Half := crcUpdate crcInit s

/-- The byte table of R90, `T[i] = crc_byte(zext_16(i), 0x00)`. -/
def crcTable (i : Byte) : Half := crcByte (i.setWidth 16) 0x00

/-- `CRC.INIT` (R84). -/
def execCrcInit (s : State) : Host.Outcome State Fault Refusal := .next (s.setAcc crcInit)

/-- `CRC.BYTE` (R85). -/
def execCrcByte (b : Byte) (s : State) : Host.Outcome State Fault Refusal := .next (s.setAcc (crcByte s.acc b))

end Sys2Proof.Machine
end

