-- ==== Sys2Proof/Machine/Operands.lean ====
section
/-! DEFINITION. The operand forms: how each field of a sample becomes bytes, on integers (41_framer.md R100 to R104) and
as the stores of `FRM.ENCODE` (R110). -/

namespace Sys2Proof.Machine

/-- `f_ts` (R100). -/
def fTs (ts : Int) : List Byte := leBytes 4 (trunc 32 ts).toNat

/-- `f_i16` (R101), for x, y and z alike. -/
def fI16 (v : Int) : List Byte := leBytes 2 (trunc 16 v).toNat

/-- `f_u8` (R102). -/
def fU8 (c : Int) : List Byte := [trunc 8 c]

/-- `f_reserved` (R103). -/
def fReserved : List Byte := leBytes 2 reservedValue.toNat

/-- `f_angle` (R104): the upper four bits are dropped, nothing else is altered. -/
def fAngle (ang : Int) : List Byte := leBytes 2 (trunc 16 ang &&& angleMask).toNat

/-- Single-byte stores of a sequence at ascending addresses: `FB[a] <- b` is `MemWrite(a, 1, b)`. -/
def byteStores : Nat → List Byte → List Store
  | _, [] => []
  | a, b :: s => ⟨a, 1, b⟩ :: byteStores (a + 1) s

/-- The five header stores of `FRM.ENCODE` (R110). -/
def headerStores : List Store := byteStores 0 header

/-- The payload stores of `FRM.ENCODE`, in the order of R110. -/
def payloadStores (c : Config) (ts : Word) (x y z ang : Half) : List Store :=
  [⟨5, 4, ts⟩, ⟨9, 2, x⟩, ⟨11, 2, y⟩, ⟨13, 2, z⟩, ⟨15, 1, (trunc 8 c.flags : Byte)⟩,
   ⟨16, 1, (trunc 8 c.address : Byte)⟩, ⟨17, 2, ang &&& angleMask⟩, ⟨19, 2, reservedValue⟩]

end Sys2Proof.Machine
end

