-- ==== Sys2Proof/Machine/Framer.lean ====
section
/-! DEFINITION. The framer unit: the packet function on integers (41_framer.md R105 to R108) and its commands (R110,
R111). -/

namespace Sys2Proof.Machine

/-- `payload` (R105). -/
def payload (c : Config) (ts x y z ang : Int) : List Byte :=
  fTs ts ++ fI16 x ++ fI16 y ++ fI16 z ++ fU8 c.flags ++ fU8 c.address ++ fAngle ang ++ fReserved

/-- `body` (R106). -/
def body (c : Config) (ts x y z ang : Int) : List Byte := header ++ payload c ts x y z ang

/-- `trailer` (R107): the CRC's low byte, then its high byte. -/
def trailer (c : Config) (ts x y z ang : Int) : List Byte := leBytes 2 (crc16 (body c ts x y z ang)).toNat

/-- `encode` (R108): the packet of a sample. -/
def encodePacket (c : Config) (ts x y z ang : Int) : List Byte := body c ts x y z ang ++ trailer c ts x y z ang

/-- The packet of a sample given as port values: a bit vector is the integer it denotes as unsigned (41_framer.md
section 1). -/
def encodePorts (c : Config) (ts : Word) (x y z ang : Half) : List Byte :=
  encodePacket c ts.toNat x.toNat y.toNat z.toNat ang.toNat

/-- `FRM.ENCODE` in a given configuration (R110): refused while a frame is pending; else the header and payload stores,
the CRC of the 21 bytes just written (ascending offset), its store, and `IDX <- 0`. -/
def frmEncodeWith (c : Config) (ts : Word) (x y z ang : Half) (s : State) : Host.Outcome State Fault Refusal :=
  if s.idx.val = 23 then
    match memWriteAll (headerStores ++ payloadStores c ts x y z ang) s with
    | .error f => .fault f
    | .ok t =>
      match memWrite t 21 2 (crcUpdate crcInit (t.frameBytes 0 crcSpan)) with
      | .error f => .fault f
      | .ok u => .next ((u.setAcc (crcUpdate crcInit (t.frameBytes 0 crcSpan))).setIdx 0)
  else .refused .frameBusy

/-- `FRM.ENCODE` on this hardware (R110). -/
def execFrmEncode (ts : Word) (x y z ang : Half) (s : State) : Host.Outcome State Fault Refusal :=
  frmEncodeWith Config.hardware ts x y z ang s

/-- `FRM.NEXT` (R111): with a frame pending emit `FB[IDX]` and advance `IDX`, else nothing. -/
def execFrmNext (s : State) : Host.Outcome State Fault Refusal :=
  if h : s.idx.val < 23 then
    match memRead s s.idx.val 1 with
    | .error f => .fault f
    | .ok b => .next ((s.emit b).setIdx ⟨s.idx.val + 1, Nat.succ_lt_succ h⟩)
  else .next s

end Sys2Proof.Machine
end

