-- ==== Sys2Proof/Machine/Misc.lean ====
section
/-! DEFINITION. `NOP` and the reserved codes (42_misc.md R130, R131). -/

namespace Sys2Proof.Machine

/-- `NOP` (R130): no state is read or written. -/
def execNop (s : State) : Host.Outcome State Fault Refusal := .next s

/-- Code 5 (R131). -/
def execReserved5 (s : State) : Host.Outcome State Fault Refusal := refuseReserved 5 s

/-- Code 6 (R131). -/
def execReserved6 (s : State) : Host.Outcome State Fault Refusal := refuseReserved 6 s

/-- Code 7 (R131). -/
def execReserved7 (s : State) : Host.Outcome State Fault Refusal := refuseReserved 7 s

end Sys2Proof.Machine
end

