-- ==== Sys2Proof/Machine/Cycle.lean ====
section
/-! DEFINITION. One step around the meanings: the input ports are sampled, `rst` has priority, else the bundle is decoded
and run (10_state.md R17, R25; 60_exceptions.md R142; 70_reset_and_hazards.md R171). -/

namespace Sys2Proof.Machine

/-- The meanings in any configuration. Only `FRM.ENCODE` reads it (R110); `execWith Config.hardware` is `exec`. It
makes no check of the configuration, `stepWith` does (DESIGN CHOICE, log entry 9). -/
def execWith (c : Config) (i : Instr) (s : State) : Host.Outcome State Fault Refusal :=
  match i with
  | .frmEncode ts x y z ang => frmEncodeWith c ts x y z ang s
  | .nop => exec .nop s
  | .crcInit => exec .crcInit s
  | .crcByte b => exec (.crcByte b) s
  | .frmNext => exec .frmNext s
  | .reserved5 => exec .reserved5 s
  | .reserved6 => exec .reserved6 s
  | .reserved7 => exec .reserved7 s

/-- One step with the meanings `run`: the port values of this step leave `inputs`; `rst` asserted is a reset step, whatever
the bundle holds (R171); else the decoded bundle runs (30_encoding.md R61). When the host presents nothing the block holds
its state (60_exceptions.md R155, log entry 3). -/
def cycle (run : Instr → State → Host.Outcome State Fault Refusal) (s : State) :
    Host.Outcome State Fault Refusal :=
  match s.inputs with
  | [] => .next s
  | p :: rest =>
    if p.rst then .next (resetStep (s.setInputs rest))
    else run (decode p.cmd.bundle) (s.setInputs rest)

/-- The step of the block in a configuration (R25). A configuration outside R4 is refused before any step (R8, V5). -/
def stepWith (c : Config) (s : State) : Host.Outcome State Fault Refusal :=
  if c.wellFormed then cycle (execWith c) s else .refused .badConfig

/-- The host drives an instruction's canonical spelling, with `rst` low. -/
def driveCommand (i : Instr) : PortsIn := ⟨false, i.ports⟩

/-- The host drives these ports at the very next step. -/
def State.present (s : State) (p : PortsIn) : State := s.setInputs (p :: s.inputs)

end Sys2Proof.Machine
end

