-- ==== Sys2Proof/Machine/Step.lean ====
section
/-! DEFINITION. The step of this hardware (00_scope.md R6): one port sample, one whole command. -/

namespace Sys2Proof.Machine

/-- One step: sample the ports, then reset or run the decoded command. -/
def step (s : State) : Host.Outcome State Fault Refusal := cycle exec s

/-- The bits of a table row driven on the command ports, `rst` low, at the very next step (log entries 3 and 8). -/
def State.withFetchWord (s : State) (nbits w : Nat) : State :=
  s.present ⟨false, CmdPorts.ofTableWord nbits w⟩

end Sys2Proof.Machine
end

