-- ==== Sys2Proof/Machine/Trace.lean ====
section
/-! DEFINITION. Command traces (30_encoding.md R65, R66): running a straight-line list of commands, and the expansions of
the pseudo-commands. -/

namespace Sys2Proof.Machine

/-- Run commands one after the other, stopping at the first fault or refusal (00_scope.md R8). -/
def runTrace : List Instr → State → Host.Outcome State Fault Refusal
  | [], s => .next s
  | i :: t, s =>
    match exec i s with
    | .next s' => runTrace t s'
    | .fault f => .fault f
    | .refused r => .refused r

/-- `CRC.MSG` (R66). -/
def crcMsg (bs : List Byte) : List Instr := .crcInit :: bs.map .crcByte

/-- `FRM.DRAIN` (R66): it depends on the state, so it is expanded when the trace is run. -/
def frmDrain (s : State) : List Instr := List.replicate (23 - s.idx.val) .frmNext

/-- `FRM.SEND` (R66): one tick of the source's system. -/
def frmSend (ts : Word) (x y z ang : Half) : List Instr :=
  .frmEncode ts x y z ang :: List.replicate 23 .frmNext

/-- The message bytes a trace feeds to the CRC unit, in order. -/
def messageBytes : List Instr → List Byte
  | [] => []
  | .crcByte b :: t => b :: messageBytes t
  | _ :: t => messageBytes t

/-- The number of `FRM.NEXT` in a trace. -/
def nextCount : List Instr → Nat
  | [] => 0
  | .frmNext :: t => nextCount t + 1
  | _ :: t => nextCount t

/-- The commands that may stand between the `CRC.BYTE`s of a message without writing `ACC`, and `CRC.BYTE` itself
(40_crc.md R88). -/
def isMessagePart : Instr → Bool
  | .nop => true
  | .crcByte _ => true
  | .frmNext => true
  | .crcInit => false
  | .frmEncode _ _ _ _ _ => false
  | .reserved5 => false
  | .reserved6 => false
  | .reserved7 => false

/-- The commands that may stand among the `FRM.NEXT`s of a frame, and `FRM.NEXT` itself (41_framer.md R113). -/
def isSendPart : Instr → Bool
  | .nop => true
  | .crcInit => true
  | .crcByte _ => true
  | .frmNext => true
  | .frmEncode _ _ _ _ _ => false
  | .reserved5 => false
  | .reserved6 => false
  | .reserved7 => false

end Sys2Proof.Machine
end

