-- ==== Sys2Proof/Machine/Assembler.lean ====
section
/-! DEFINITION. The textual form of a trace (30_encoding.md R65, R66): lines of commands and pseudo-commands over
integers, and their spelling in characters. It has no effect on what a command does (92_eei_decisions.md D15). -/

namespace Sys2Proof.Machine

/-- One line of a trace, operands as mathematical integers (R65, R66). -/
inductive TraceLine where
  | nop
  | crcInit
  | crcByte (b : Int)
  | frmEncode (ts x y z ang : Int)
  | frmNext
  | crcMsg (bs : List Int)
  | frmDrain
  | frmSend (ts x y z ang : Int)
  deriving DecidableEq, Repr

/-- The operand of `CRC.BYTE` is an integer 0 to 255; the assembler rejects any other (R65). -/
def byteOperand (b : Int) : Option Byte := if 0 ≤ b ∧ b ≤ 255 then some (trunc 8 b) else none

/-- All operands of a `CRC.MSG`, or nothing if one is rejected. -/
def byteOperands : List Int → Option (List Byte)
  | [] => some []
  | b :: bs =>
    match byteOperand b, byteOperands bs with
    | some v, some vs => some (v :: vs)
    | _, _ => none

/-- The fields of a sample of integers: `trunc_32(ts)`, `trunc_16` of the others (R65, 10_state.md R17). -/
def encodeCommand (ts x y z ang : Int) : Instr :=
  .frmEncode (trunc 32 ts) (trunc 16 x) (trunc 16 y) (trunc 16 z) (trunc 16 ang)

/-- The commands a line stands for when it is reached in state `s`, or nothing where the assembler rejects the line. -/
def TraceLine.expand (s : State) : TraceLine → Option (List Instr)
  | .nop => some [.nop]
  | .crcInit => some [.crcInit]
  | .crcByte b =>
    match byteOperand b with
    | some v => some [.crcByte v]
    | none => none
  | .frmEncode ts x y z ang => some [encodeCommand ts x y z ang]
  | .frmNext => some [.frmNext]
  | .crcMsg bs =>
    match byteOperands bs with
    | some vs => some (Machine.crcMsg vs)
    | none => none
  | .frmDrain => some (Machine.frmDrain s)
  | .frmSend ts x y z ang =>
    some (Machine.frmSend (trunc 32 ts) (trunc 16 x) (trunc 16 y) (trunc 16 z) (trunc 16 ang))

/-- Run lines in order; nothing where the assembler rejects a line that is reached (DESIGN CHOICE, log entry 12; safe: R65
does not say when a line is rejected). -/
def runLines : List TraceLine → State → Option (Host.Outcome State Fault Refusal)
  | [], s => some (.next s)
  | l :: ls, s =>
    match l.expand s with
    | none => none
    | some is =>
      match runTrace is s with
      | .next t => runLines ls t
      | .fault f => some (.fault f)
      | .refused r => some (.refused r)

/-! The spelling of a line. What R65 leaves open of it is settled here (DESIGN CHOICE, log entry 12; safe): blanks and tabs
may stand before the mnemonic, around every operand, and on both sides of the `=` inside an operand `name=value`. -/

def isBlank (c : Char) : Bool := c == ' ' || c == '\t'

def trimChars (l : List Char) : List Char := ((l.dropWhile isBlank).reverse.dropWhile isBlank).reverse

/-- Split at every occurrence of a character. -/
def splitChars (c : Char) : List Char → List (List Char)
  | [] => [[]]
  | x :: xs =>
    if x == c then [] :: splitChars c xs
    else
      match splitChars c xs with
      | [] => [[x]]
      | w :: ws => (x :: w) :: ws

/-- The value of a decimal or hexadecimal digit, of either case (DESIGN CHOICE, log entry 12; safe). -/
def digitValue (base : Nat) (c : Char) : Option Nat :=
  let n := c.toNat
  let v := if 48 ≤ n ∧ n ≤ 57 then n - 48 else if 65 ≤ n ∧ n ≤ 70 then n - 55 else if 97 ≤ n ∧ n ≤ 102 then n - 87 else base
  if v < base then some v else none

def readDigits (base : Nat) : Nat → List Char → Option Nat
  | acc, [] => some acc
  | acc, c :: cs =>
    match digitValue base c with
    | some v => readDigits base (acc * base + v) cs
    | none => none

/-- A number: decimal, or hexadecimal with `0x` (R65). Leading zeros are accepted, `0X` is not (DESIGN CHOICE, log entry
12; safe). -/
def readNat : List Char → Option Nat
  | [] => none
  | ['0', 'x'] => none
  | '0' :: 'x' :: c :: cs => readDigits 16 0 (c :: cs)
  | c :: cs => readDigits 10 0 (c :: cs)

/-- An integer: a number, with `-` directly before it when negative, and no `+` (DESIGN CHOICE, log entry 12; safe). -/
def readInt : List Char → Option Int
  | '-' :: cs => (readNat cs).map fun n => -(n : Int)
  | cs => (readNat cs).map fun n => (n : Int)

def readInts : List (List Char) → Option (List Int)
  | [] => some []
  | w :: ws =>
    match readInt (trimChars w), readInts ws with
    | some v, some vs => some (v :: vs)
    | _, _ => none

/-- An operand `name=value` (R65). Blanks and tabs may stand on both sides of the `=` (DESIGN CHOICE, log entry 12;
safe). -/
def readNamed (name w : List Char) : Option Int :=
  match splitChars '=' w with
  | [n, v] => if trimChars n = name then readInt (trimChars v) else none
  | _ => none

/-- The five operands of `FRM.ENCODE` and `FRM.SEND`, in the fixed order `ts, x, y, z, ang` (R65). -/
def readSample (k : Int → Int → Int → Int → Int → TraceLine) : List (List Char) → Option TraceLine
  | [a, b, c, d, e] =>
    match readNamed ['t', 's'] a, readNamed ['x'] b, readNamed ['y'] c, readNamed ['z'] d,
        readNamed ['a', 'n', 'g'] e with
    | some ts, some x, some y, some z, some ang => some (k ts x y z ang)
    | _, _, _, _, _ => none
  | _ => none

/-- A command of a line: its mnemonic, case-sensitive upper case, and its operands (R65, R66). -/
def readCommand (m : List Char) (ops : List (List Char)) : Option TraceLine :=
  if m = ['N', 'O', 'P'] then (if ops = [] then some .nop else none)
  else if m = ['C', 'R', 'C', '.', 'I', 'N', 'I', 'T'] then (if ops = [] then some .crcInit else none)
  else if m = ['C', 'R', 'C', '.', 'B', 'Y', 'T', 'E'] then
    match readInts ops with
    | some [b] => some (.crcByte b)
    | _ => none
  else if m = ['F', 'R', 'M', '.', 'E', 'N', 'C', 'O', 'D', 'E'] then readSample .frmEncode ops
  else if m = ['F', 'R', 'M', '.', 'N', 'E', 'X', 'T'] then (if ops = [] then some .frmNext else none)
  else if m = ['C', 'R', 'C', '.', 'M', 'S', 'G'] then (readInts ops).map .crcMsg
  else if m = ['F', 'R', 'M', '.', 'D', 'R', 'A', 'I', 'N'] then (if ops = [] then some .frmDrain else none)
  else if m = ['F', 'R', 'M', '.', 'S', 'E', 'N', 'D'] then readSample .frmSend ops
  else none

/-- A line: what stands before `;`, a mnemonic, then operands separated by commas (R65). `some none` is a line without a
command, `none` a line the assembler rejects. Blanks and tabs may stand before the mnemonic, and an empty line or one with
a comment alone is accepted as no command (DESIGN CHOICE, log entry 12; safe). -/
def readLine (l : List Char) : Option (Option TraceLine) :=
  let t := trimChars (l.takeWhile fun c => !(c == ';'))
  let rest := trimChars (t.dropWhile fun c => !(isBlank c))
  if t = [] then some none
  else (readCommand (t.takeWhile fun c => !(isBlank c)) (if rest = [] then [] else splitChars ',' rest)).map some

end Sys2Proof.Machine
end

