-- ==== Sys2Proof/Machine/Flags.lean ====
section
/-! DEFINITION. The block has no stored flag (10_state.md R16). Its status is read on output ports, functions of the
stored state (R18). -/

namespace Sys2Proof.Machine

/-- `crc_out` (R18). -/
def State.crcOut (s : State) : Half := s.acc

/-- `dvalid` (R18): a frame byte is available. -/
def State.dvalid (s : State) : Bool := decide (s.idx.val < 23)

/-- `dlast` (R18): `dout` is the last byte of the frame. -/
def State.dlast (s : State) : Bool := decide (s.idx.val = 22)

/-- `frm_ready` (R18): `FRM.ENCODE` is legal. -/
def State.frmReady (s : State) : Bool := decide (s.idx.val = 23)

/-- `dout` at read number `read` (R18): `FB[IDX]` while a frame is pending, else any value (V2, log entry 2). -/
def State.dout (read : Nat) (s : State) : Byte :=
  if s.idx.val < 23 then s.frameByte s.idx.val else Config.idleDout read

/-- The values of all output ports at one look at them (R18). -/
structure PortsOut where
  crcOut   : Half
  dout     : Byte
  dvalid   : Bool
  dlast    : Bool
  frmReady : Bool
  deriving DecidableEq, Repr

/-- Reading the output ports: it changes nothing (R39). -/
def State.outputs (read : Nat) (s : State) : PortsOut where
  crcOut   := s.crcOut
  dout     := s.dout read
  dvalid   := s.dvalid
  dlast    := s.dlast
  frmReady := s.frmReady

end Sys2Proof.Machine
end

