-- ==== Sys2Proof/Safety.lean ====
section
/-! DEFINITION. What the claims speak of: the invariant of the frame (10_state.md R26), the conditions under which a
command is accepted (60_exceptions.md R141), and the observation of a complete run (70_reset_and_hazards.md R184). -/

namespace Sys2Proof.Machine

/-- `FB` holds a complete well-formed frame of configuration `c` (R26). -/
structure FrameHolds (c : Config) (s : State) : Prop where
  written  : ∀ a, a < 23 → (Memory.lookup s.fb a).isSome = true
  header   : s.frameBytes 0 5 = header
  flags    : s.frameByte 15 = trunc 8 c.flags
  address  : s.frameByte 16 = trunc 8 c.address
  angle    : (s.frameByte 18).extractLsb' 4 4 = 0
  reserved : s.frameByte 19 = 0 ∧ s.frameByte 20 = 0
  crc      : fromLe (s.frameBytes 21 2) = (crc16 (s.frameBytes 0 21)).toNat

/-- The state invariant (R26): while a frame is pending, `FB` holds it whole. -/
def FrameInv (c : Config) (s : State) : Prop := s.idx.val < 23 → FrameHolds c s

/-- What `IDX` means while a frame is pending: the bytes `FB[0..IDX)` have been emitted, they are the last ones in `SINK`
(R12). -/
def SentInv (s : State) : Prop :=
  s.idx.val < 23 → ∃ earlier : List Byte, s.sink = earlier ++ s.frameBytes 0 s.idx.val

/-- A command is accepted in a state: it is no reserved code, and an `FRM.ENCODE` finds no frame pending (R141). -/
def accepts (i : Instr) (s : State) : Bool :=
  match i with
  | .nop => true
  | .crcInit => true
  | .crcByte _ => true
  | .frmEncode _ _ _ _ _ => s.frmReady
  | .frmNext => true
  | .reserved5 => false
  | .reserved6 => false
  | .reserved7 => false

/-- What a run shows when it ends: a complete run ended with no frame pending and no refusal, and its observation is
(`SINK`, `crc_out`) (R184). -/
def observation : Host.Outcome State Fault Refusal → Option (List Byte × Half)
  | .next s => if s.idx.val = 23 then some (s.sink, s.crcOut) else none
  | .fault _ => none
  | .refused _ => none

/-- The sample a `FRM.SEND` sends, as port values. -/
structure Sample where
  ts  : Word
  x   : Half
  y   : Half
  z   : Half
  ang : Half
  deriving DecidableEq, Repr

/-- `FRM.SEND` of a sample (30_encoding.md R66). -/
def Sample.send (p : Sample) : List Instr := frmSend p.ts p.x p.y p.z p.ang

/-- The packet of a sample on this hardware. -/
def Sample.packet (p : Sample) : List Byte := encodePorts Config.hardware p.ts p.x p.y p.z p.ang

end Sys2Proof.Machine
end

