-- ==== Sys2Proof/Certificates/Slice0/Obligations.lean ====
section
/-! DEFINITION. The statements about the block, from the numbered rules of spec/. Where a free value of Config stands
behind `frameByte` or `dout`, the statement holds whatever the value is. -/

open Sys2Proof Sys2Proof.Machine

/-! Encoding (30_encoding.md Part B). -/

/-- Bundles of the spec's programs (95_test_vectors.md section 4) decode to the commands they are listed with. -/
def Obligations.SpecBundlesDecode : Prop :=
  decode 0x0 = .nop ∧ decode 0x001 = .crcInit ∧ decode 0x18A = .crcByte 0x31 ∧ decode 0x4 = .frmNext ∧
  decode 0x000002EE0000006400000000003 = .frmEncode 0 200 0 1500 0 ∧
  decode 0x08E802EE0000006400000000003 = .frmEncode 0 200 0 1500 4560 ∧
  decode 0x0707BFFFC0007FFF80000000803 = .frmEncode 1 0xFFFF 0x8000 0x7FFF 3599 ∧
  decode 0x5 = .reserved5 ∧ decode 0x6 = .reserved6 ∧ decode 0x7 = .reserved7

/-- Decoding the canonical bundle of any instruction gives it back (R59, R61). -/
def Obligations.DecodeInvertsEncode : Prop := ∀ i : Instr, decode (encode i) = i

/-- The bundle as a number, and the ports read back from any bundle (R58). -/
def Obligations.BundleIsTheSumOfItsPorts : Prop :=
  (∀ p : CmdPorts, p.bundle.toNat =
    p.op.toNat + 2 ^ 3 * p.din.toNat + 2 ^ 11 * p.ts.toNat + 2 ^ 43 * p.x.toNat + 2 ^ 59 * p.y.toNat +
      2 ^ 75 * p.z.toNat + 2 ^ 91 * p.ang.toNat) ∧
  ∀ w : CmdWord, (CmdPorts.ofBundle w).bundle = w

/-- The opcode map: the decoder looks at `CMD[2:0]` only and takes the fields of the code's format (R61). -/
def Obligations.CodeSelectsTheCommand : Prop :=
  ∀ w : CmdWord,
    (w.extractLsb' 0 3 = 0 → decode w = .nop) ∧
    (w.extractLsb' 0 3 = 1 → decode w = .crcInit) ∧
    (w.extractLsb' 0 3 = 2 → decode w = .crcByte (w.extractLsb' 3 8)) ∧
    (w.extractLsb' 0 3 = 3 → decode w = .frmEncode (w.extractLsb' 11 32) (w.extractLsb' 43 16)
      (w.extractLsb' 59 16) (w.extractLsb' 75 16) (w.extractLsb' 91 16)) ∧
    (w.extractLsb' 0 3 = 4 → decode w = .frmNext) ∧
    (w.extractLsb' 0 3 = 5 → decode w = .reserved5) ∧
    (w.extractLsb' 0 3 = 6 → decode w = .reserved6) ∧
    (w.extractLsb' 0 3 = 7 → decode w = .reserved7)

/-- An ignored field changes neither the next state nor anything else of the step, and the canonical spelling puts 0 in
it (R59). -/
def Obligations.IgnoredFieldsChangeNothing : Prop :=
  (∀ (s : State) (p q : CmdPorts), p.op = q.op → (p.op = 2 → p.din = q.din) →
    (p.op = 3 → p.ts = q.ts ∧ p.x = q.x ∧ p.y = q.y ∧ p.z = q.z ∧ p.ang = q.ang) →
    step (s.present ⟨false, p⟩) = step (s.present ⟨false, q⟩)) ∧
  ∀ i : Instr, (i.ports.op ≠ 2 → i.ports.din = 0) ∧
    (i.ports.op ≠ 3 → i.ports.ts = 0 ∧ i.ports.x = 0 ∧ i.ports.y = 0 ∧ i.ports.z = 0 ∧ i.ports.ang = 0)

/-! The CRC functions (40_crc.md). -/

/-- `crc_shift1`, with what the constant does to the bits and the rule's examples (R80). -/
def Obligations.CrcShiftTestsTheLowBit : Prop :=
  (∀ a : Half, a.getLsbD 0 = true →
    crcShift1 a = (a >>> 1) ^^^ 0xA001 ∧ (crcShift1 a).getLsbD 15 = true ∧
    (crcShift1 a).getLsbD 13 = !(a >>> 1).getLsbD 13 ∧ (crcShift1 a).getLsbD 0 = !(a >>> 1).getLsbD 0) ∧
  (∀ a : Half, a.getLsbD 0 = false → crcShift1 a = a >>> 1) ∧
  (∀ a : Half, (a >>> 1).getLsbD 15 = false) ∧
  crcShift1 0xFFFF = 0xDFFE ∧ crcShift1 0xFFFE = 0x7FFF ∧ crcShift1 0x0001 = 0xA001 ∧ crcShift1 0x0000 = 0x0000

/-- `crc_byte`: one XOR into the low byte, the high byte kept by it, then exactly eight iterations (R81). -/
def Obligations.CrcByteIsEightShifts : Prop :=
  (∀ (a : Half) (b : Byte), crcByte a b = crcShift1^[8] (a ^^^ b.setWidth 16)) ∧
  (∀ (a : Half) (b : Byte), (a ^^^ b.setWidth 16).extractLsb' 8 8 = a.extractLsb' 8 8) ∧
  crcByte 0xFFFF 0x00 = 0x40BF ∧ crcByte 0xFFFF 0x01 = 0x807E ∧ crcByte 0xFFFF 0xFF = 0x00FF ∧
  crcByte 0x0000 0x00 = 0x0000 ∧ crcByte 0x0000 0x01 = 0xC0C1

/-- `CRC16` is the left fold of `crc_byte` from 0xFFFF, with no final transformation (R82, R83). -/
def Obligations.Crc16IsALeftFold : Prop :=
  (∀ a : Half, crcUpdate a [] = a) ∧
  (∀ (a : Half) (b : Byte) (rest : List Byte), crcUpdate a ([b] ++ rest) = crcUpdate (crcByte a b) rest) ∧
  (∀ s : List Byte, crc16 s = s.foldl crcByte 0xFFFF) ∧ (∀ s : List Byte, crc16 s = crcUpdate 0xFFFF s) ∧
  crc16 [] = 0xFFFF ∧
  crc16 [0x31, 0x32, 0x33, 0x34, 0x35, 0x36, 0x37, 0x38, 0x39] = 0x4B37 ∧
  crc16 [0x01, 0x03, 0x00, 0x00, 0x00, 0x0A] = 0xCDC5 ∧ crc16 [0xFF, 0x47, 0x01, 0x00, 0x10] = 0xAC74

/-- A message may be fed in pieces; the CRC of a frame starts from the header's 0xAC74 (R89). -/
def Obligations.CrcIsIncremental : Prop :=
  (∀ (a : Half) (s t : List Byte), crcUpdate a (s ++ t) = crcUpdate (crcUpdate a s) t) ∧
  (∀ s t : List Byte, crc16 (s ++ t) = crcUpdate (crc16 s) t) ∧
  ∀ (c : Config) (ts x y z ang : Int), crc16 (body c ts x y z ang) = crcUpdate 0xAC74 (payload c ts x y z ang)

/-- Linearity over bits and the byte-parallel table form (R90). -/
def Obligations.CrcIsLinear : Prop :=
  (∀ a a' : Half, crcShift1 (a ^^^ a') = crcShift1 a ^^^ crcShift1 a') ∧
  (∀ (a a' : Half) (b b' : Byte), crcByte (a ^^^ a') (b ^^^ b') = crcByte a b ^^^ crcByte a' b') ∧
  (∀ (a : Half) (b : Byte), crcByte a b = crcByte (a ^^^ b.setWidth 16) 0x00) ∧
  (∀ (a : Half) (b : Byte), crcByte a b = (a >>> 8) ^^^ crcTable (a.setWidth 8 ^^^ b)) ∧
  ∀ i : Byte, crcTable i = crcByte (i.setWidth 16) 0x00

/-- A message followed by its own CRC, low byte first, has CRC 0; and a message followed by two bytes has CRC 0 exactly
when those bytes are its CRC read little-endian (R91). -/
def Obligations.CrcResidueIsZero : Prop :=
  (∀ m : List Byte, crc16 (m ++ leBytes 2 (crc16 m).toNat) = 0x0000) ∧
  ∀ (m : List Byte) (b0 b1 : Byte), crc16 (m ++ [b0, b1]) = 0x0000 ↔ (crc16 m).toNat = fromLe [b0, b1]

/-! The commands. -/

/-- `NOP` completes in every state and changes nothing; its code makes it one whatever the other fields hold, undriven
ports issue it, and `NOP`s may be taken out of any trace (R130). -/
def Obligations.NopChangesNothing : Prop :=
  (∀ s : State, exec .nop s = .next s) ∧
  (∀ w : CmdWord, w.extractLsb' 0 3 = 0 → decode w = .nop) ∧ CmdPorts.zero.decode = .nop ∧
  ∀ (t : List Instr) (s : State), runTrace (t.filter fun i => decide (i ≠ .nop)) s = runTrace t s

/-- `CRC.INIT` completes in every state, sets `ACC` to 0xFFFF and changes nothing else; twice is the same as once; and
after it `ACC` no longer equals a pending frame's CRC, unless that CRC is 0xFFFF itself (R84). -/
def Obligations.CrcInitSetsAcc : Prop :=
  (∀ s : State, exec .crcInit s = .next { s with acc := 0xFFFF }) ∧
  (∀ w : CmdWord, w.extractLsb' 0 3 = 1 → decode w = .crcInit) ∧
  (∀ s t : State, exec .crcInit s = .next t → t.crcOut = 0xFFFF) ∧
  (∀ s : State, runTrace [.crcInit, .crcInit] s = runTrace [.crcInit] s) ∧
  ∀ s t : State, exec .crcInit s = .next t → fromLe (s.frameBytes 21 2) ≠ 0xFFFF →
    t.acc.toNat ≠ fromLe (t.frameBytes 21 2)

/-- `CRC.BYTE` completes in every state, applies `crc_byte` to `ACC` and changes nothing else; a zero byte leaves exactly
0x0000 and 0xC001 unchanged, and the byte equal to `ACC[7:0]` gives `ACC >> 8` (R85). -/
def Obligations.CrcByteFeedsOneByte : Prop :=
  (∀ (s : State) (b : Byte), exec (.crcByte b) s = .next { s with acc := crcByte s.acc b }) ∧
  (∀ w : CmdWord, w.extractLsb' 0 3 = 2 → decode w = .crcByte (w.extractLsb' 3 8)) ∧
  (∀ a : Half, crcByte a 0x00 = a ↔ a = 0x0000 ∨ a = 0xC001) ∧
  (∀ a : Half, crcByte a (a.extractLsb' 0 8) = a >>> 8) ∧
  crcByte 0xFFFF 0x00 = 0x40BF ∧ crcByte 0x1234 0x34 = 0x0012 ∧ crcByte 0xFFFF 0x31 = 0x947E

/-- `FRM.ENCODE` with no frame pending completes: `FB` holds the packet, `ACC` its CRC, `IDX` is 0, nothing is emitted and
nothing else changes; with a frame pending it is refused, whatever the operands (R110). -/
def Obligations.FrmEncodeBuildsThePacket : Prop :=
  (∀ (ts : Word) (x y z ang : Half) (s : State), s.idx.val = 23 →
    ∃ t : State, exec (.frmEncode ts x y z ang) s = .next t ∧
      (∀ a : Nat, a < 23 → Memory.lookup t.fb a = (encodePorts Config.hardware ts x y z ang)[a]?) ∧
      (∀ a : Nat, 23 ≤ a → Memory.lookup t.fb a = Memory.lookup s.fb a) ∧
      t.frameBytes 0 23 = encodePorts Config.hardware ts x y z ang ∧
      t.acc = crc16 (t.frameBytes 0 21) ∧ t.acc.toNat = fromLe (t.frameBytes 21 2) ∧ t.idx.val = 0 ∧
      t.sink = s.sink ∧ t.inputs = s.inputs ∧
      t.dvalid = true ∧ (∀ read : Nat, t.dout read = 0xFF) ∧ t.dlast = false ∧ t.frmReady = false ∧
      t.crcOut = t.acc) ∧
  (∀ (ts : Word) (x y z ang : Half) (s : State), s.idx.val < 23 →
    exec (.frmEncode ts x y z ang) s = .refused .frameBusy) ∧
  ∀ w : CmdWord, w.extractLsb' 0 3 = 3 → decode w = .frmEncode (w.extractLsb' 11 32) (w.extractLsb' 43 16)
    (w.extractLsb' 59 16) (w.extractLsb' 75 16) (w.extractLsb' 91 16)

/-- The packet byte by byte, in the bits of the operands (R50): header, little-endian fields, FLAGS, ADDRESS, the angle's
low 12 bits, two zeros, and the CRC of the 21 bytes before it, low byte first. -/
def Obligations.PacketLayoutByBits : Prop :=
  ∀ (ts : Word) (x y z ang : Half), ∃ first : List Byte,
    first = [0xFF, 0x47, 0x01, 0x00, 0x10,
      ts.extractLsb' 0 8, ts.extractLsb' 8 8, ts.extractLsb' 16 8, ts.extractLsb' 24 8,
      x.extractLsb' 0 8, x.extractLsb' 8 8, y.extractLsb' 0 8, y.extractLsb' 8 8, z.extractLsb' 0 8, z.extractLsb' 8 8,
      0x00, 0x0A, ang.extractLsb' 0 8, (ang.extractLsb' 8 4).setWidth 8, 0x00, 0x00] ∧
    encodePorts Config.hardware ts x y z ang =
      first ++ [(crc16 first).extractLsb' 0 8, (crc16 first).extractLsb' 8 8]

/-- In every configuration `FRM.ENCODE` builds that configuration's packet (that the meaning `execWith` answers also outside
the legal values, where only `stepWith` refuses with `BadConfig`, is the model's choice, log entry 9), and this hardware's meanings are those of its
configuration (R4); with ADDRESS 0x0B and FLAGS 0x01 the packet is the one of 95_test_vectors.md section 3.2. -/
def Obligations.EncodeFollowsTheConfiguration : Prop :=
  (∀ (c : Config) (ts : Word) (x y z ang : Half) (s : State), s.idx.val = 23 →
    ∃ t : State, execWith c (.frmEncode ts x y z ang) s = .next t ∧
      t.frameBytes 0 23 = encodePorts c ts x y z ang ∧ t.acc = crc16 (t.frameBytes 0 21) ∧ t.idx.val = 0 ∧
      t.sink = s.sink) ∧
  (∀ (i : Instr) (s : State), execWith Config.hardware i s = exec i s) ∧
  encodePacket ⟨0x0B, 0x01⟩ 0 200 0 1500 0 =
    [0xFF, 0x47, 0x01, 0x00, 0x10, 0x00, 0x00, 0x00, 0x00, 0xC8, 0x00, 0x00, 0x00, 0xDC, 0x05, 0x01, 0x0B, 0x00, 0x00,
      0x00, 0x00, 0x95, 0xDD]

/-- `FRM.NEXT` completes in every state: with a frame pending it emits the byte `dout` shows and advances `IDX`, else it
changes nothing (R111). -/
def Obligations.FrmNextEmitsTheNextByte : Prop :=
  (∀ (s : State) (h : s.idx.val < 23), exec .frmNext s =
    .next { s with sink := s.sink ++ [s.frameByte s.idx.val], idx := ⟨s.idx.val + 1, Nat.succ_lt_succ h⟩ }) ∧
  (∀ s : State, s.idx.val = 23 → exec .frmNext s = .next s) ∧
  (∀ (s : State) (read : Nat), s.idx.val < 23 → s.dout read = s.frameByte s.idx.val) ∧
  ∀ w : CmdWord, w.extractLsb' 0 3 = 4 → decode w = .frmNext

/-- A reserved code is refused with `ReservedOp` of the code, in every state and whatever the other fields hold (R131). -/
def Obligations.ReservedCodesAreRefused : Prop :=
  (∀ s : State, exec .reserved5 s = .refused (.reservedOp 5) ∧ exec .reserved6 s = .refused (.reservedOp 6) ∧
    exec .reserved7 s = .refused (.reservedOp 7)) ∧
  ∀ (s : State) (w : CmdWord), 5 ≤ (w.extractLsb' 0 3).toNat →
    exec (decode w) s = .refused (.reservedOp (w.extractLsb' 0 3))

/-! Agreement of the machine with the functions. -/

/-- After a trace of `CRC.BYTE`s with `NOP`s and `FRM.NEXT`s among them, `ACC` is `crc_update` of the bytes fed; after
`CRC.INIT` and such a trace it is `CRC16` of them (R88). -/
def Obligations.CrcTraceComputesCrc16 : Prop :=
  ∀ (t : List Instr) (s : State), (∀ i ∈ t, isMessagePart i = true) →
    (∃ u : State, runTrace t s = .next u ∧ u.acc = crcUpdate s.acc (messageBytes t)) ∧
    ∃ u : State, runTrace (.crcInit :: t) s = .next u ∧ u.acc = crc16 (messageBytes t) ∧
      u.crcOut = crc16 (messageBytes t)

/-- `CRC.MSG` leaves the message's CRC in `ACC` and changes nothing else (R66, R88). -/
def Obligations.CrcMsgLeavesTheCrc : Prop :=
  ∀ (bs : List Byte) (s : State), runTrace (crcMsg bs) s = .next { s with acc := crc16 bs }

/-- `FRM.ENCODE` and 23 `FRM.NEXT`, with `NOP`s and CRC commands among them, append exactly the packet to `SINK`; any
number of `FRM.SEND`s append their packets with nothing between them (R113). -/
def Obligations.SendAppendsThePacket : Prop :=
  (∀ (ts : Word) (x y z ang : Half) (t : List Instr) (s : State), s.idx.val = 23 →
    (∀ i ∈ t, isSendPart i = true) → nextCount t = 23 →
    ∃ u : State, runTrace (.frmEncode ts x y z ang :: t) s = .next u ∧
      u.sink = s.sink ++ encodePorts Config.hardware ts x y z ang ∧ u.idx.val = 23) ∧
  ∀ (ps : List Sample) (s : State), s.idx.val = 23 →
    ∃ u : State, runTrace (ps.flatMap Sample.send) s = .next u ∧ u.sink = s.sink ++ ps.flatMap Sample.packet ∧
      (ps.flatMap Sample.packet).length = 23 * ps.length ∧ u.idx.val = 23

/-- What the outputs show after `FRM.ENCODE` and k `FRM.NEXT` (R112). -/
def Obligations.OutputsWhileAFrameIsSent : Prop :=
  ∀ (ts : Word) (x y z ang : Half) (t : List Instr) (s : State), s.idx.val = 23 →
    (∀ i ∈ t, isSendPart i = true) → nextCount t ≤ 23 →
    ∃ u : State, runTrace (.frmEncode ts x y z ang :: t) s = .next u ∧ u.idx.val = nextCount t ∧
      u.sink = s.sink ++ (encodePorts Config.hardware ts x y z ang).take (nextCount t) ∧
      (nextCount t < 23 → u.dvalid = true ∧ u.frmReady = false ∧ (u.dlast = true ↔ nextCount t = 22) ∧
        ∀ read : Nat, (encodePorts Config.hardware ts x y z ang)[nextCount t]? = some (u.dout read)) ∧
      (nextCount t = 23 → u.dvalid = false ∧ u.frmReady = true ∧ u.dlast = false)

/-- `FRM.DRAIN` emits the rest of the pending frame and leaves `IDX = 23` (R66). -/
def Obligations.DrainEmitsTheRest : Prop :=
  ∀ s : State, (∀ a : Nat, s.idx.val ≤ a → a < 23 → (Memory.lookup s.fb a).isSome = true) →
    runTrace (frmDrain s) s =
      .next { s with sink := s.sink ++ s.frameBytes s.idx.val (23 - s.idx.val), idx := 23 }

/-- Running the input ports is running the trace: a host that drives a trace's commands, one per step, brings the machine
where `runTrace` does (R6, R25; the list `inputs` of the ports to come is the model's choice, log entry 3). -/
def Obligations.DrivenCommandsRunTheTrace : Prop :=
  ∀ (t : List Instr) (rest : List PortsIn) (s : State),
    Host.Core.run Sys2Proof.core t.length (s.setInputs (t.map driveCommand ++ rest)) =
      runTrace t (s.setInputs rest)

/-! The step, reset and the configuration. -/

/-- A step with `rst` low runs the decoded bundle of its ports on the state whose `inputs` have moved on by one. -/
def Obligations.StepRunsTheDecodedCommand : Prop :=
  (∀ (s : State) (p : PortsIn) (rest : List PortsIn), s.inputs = p :: rest → p.rst = false →
    step s = exec (decode p.cmd.bundle) { s with inputs := rest }) ∧
  ∀ (s : State) (nbits w : Nat) (i : Instr), decodeTableWord nbits w = some i →
    step (s.withFetchWord nbits w) = exec i s

/-- When the host presents nothing, the block holds its state (R155; that an empty `inputs` is the host presenting nothing
is the model's choice, log entry 3). -/
def Obligations.NothingPresentedHoldsTheState : Prop :=
  ∀ s : State, s.inputs = [] → step s = .next s

/-- A reset step sets `ACC` and `IDX`, leaves `SINK` alone, emits nothing, and the outputs follow (R170). -/
def Obligations.ResetStepSetsAccAndIdx : Prop :=
  ∀ (s : State) (p : PortsIn) (rest : List PortsIn), s.inputs = p :: rest → p.rst = true →
    ∃ t : State, step s = .next t ∧ t.acc = 0xFFFF ∧ t.idx.val = 23 ∧ t.sink = s.sink ∧ t.inputs = rest ∧
      t.crcOut = 0xFFFF ∧ t.dvalid = false ∧ t.dlast = false ∧ t.frmReady = true

/-- After a reset step no location of `FB` holds a value (R173; how the model keeps 'no value' is log entry 1). -/
def Obligations.ResetStepEmptiesTheFrame : Prop :=
  ∀ (s t : State) (p : PortsIn) (rest : List PortsIn), s.inputs = p :: rest → p.rst = true → step s = .next t →
    ∀ a : Nat, Memory.lookup t.fb a = none

/-- Reset wins over the command of its step, whatever the bundle holds, never refuses, and two reset steps leave the state
of one (R171). -/
def Obligations.ResetHasPriority : Prop :=
  (∀ (s : State) (p q : CmdPorts), step (s.present ⟨true, p⟩) = step (s.present ⟨true, q⟩)) ∧
  (∀ (s : State) (p : CmdPorts), ∃ t : State, step (s.present ⟨true, p⟩) = .next t) ∧
  ∀ (s t : State) (p q : CmdPorts), step (s.present ⟨true, p⟩) = .next t → step (t.present ⟨true, q⟩) = .next t

/-- The state after reset (R24): `crc_out` reads the CRC of the empty sequence, no frame is pending, `SINK` is empty. -/
def Obligations.ResetState : Prop :=
  State.reset.acc = 0xFFFF ∧ State.reset.crcOut = crc16 [] ∧ State.reset.idx.val = 23 ∧ State.reset.dvalid = false ∧
  State.reset.dlast = false ∧ State.reset.frmReady = true ∧ State.reset.sink = []

/-- Reset cuts a pending frame: the bytes already sent stay in `SINK` as a fragment, and the next packet follows it
directly (R172). -/
def Obligations.ResetLeavesAFragment : Prop :=
  ∀ (ts : Word) (x y z ang : Half) (p : Sample) (k : Nat) (s : State), s.idx.val = 23 → k < 23 →
    ∃ t u : State, runTrace (.frmEncode ts x y z ang :: List.replicate k .frmNext) s = .next t ∧ t.idx.val = k ∧
      (resetStep t).idx.val = 23 ∧
      (resetStep t).sink = s.sink ++ (encodePorts Config.hardware ts x y z ang).take k ∧
      runTrace p.send (resetStep t) = .next u ∧
      u.sink = s.sink ++ (encodePorts Config.hardware ts x y z ang).take k ++ p.packet

/-- The complete list of refusals (R141): a reserved code, an `FRM.ENCODE` on a pending frame, and a bad configuration
before any step; every other command completes, and nothing faults. -/
def Obligations.RefusalsAreExactlyTheListed : Prop :=
  (∀ (i : Instr) (s : State), accepts i s = true ↔ ∃ t : State, exec i s = .next t) ∧
  (∀ (i : Instr) (s : State) (f : Fault), exec i s ≠ .fault f) ∧
  (∀ (i : Instr) (s : State) (r : Refusal), exec i s = .refused r ↔
    (i = .reserved5 ∧ r = .reservedOp 5) ∨ (i = .reserved6 ∧ r = .reservedOp 6) ∨
    (i = .reserved7 ∧ r = .reservedOp 7) ∨
    ((∃ (ts : Word) (x y z ang : Half), i = .frmEncode ts x y z ang) ∧ s.idx.val < 23 ∧ r = .frameBusy)) ∧
  ∀ (c : Config) (s : State), stepWith c s = .refused .badConfig ↔
    ¬(0 ≤ c.address ∧ c.address ≤ 255 ∧ 0 ≤ c.flags ∧ c.flags ≤ 255)

/-- The step of this hardware is the step in its configuration, which is a legal one (R4, R25). -/
def Obligations.StepIsTheHardwareConfigurationsStep : Prop :=
  Config.hardware.address = 0x0A ∧ Config.hardware.flags = 0x00 ∧ Config.hardware.wellFormed = true ∧
  ∀ s : State, step s = stepWith Config.hardware s

/-- No step faults, in any configuration and any state (R140, R41). -/
def Obligations.NoStepFaults : Prop :=
  (∀ (s : State) (f : Fault), step s ≠ .fault f) ∧ ∀ (c : Config) (s : State) (f : Fault), stepWith c s ≠ .fault f

/-! What a step leaves unchanged. -/

/-- Which command writes which state (R14): only `CRC.INIT`, `CRC.BYTE` and `FRM.ENCODE` write `ACC`, only `FRM.ENCODE`
writes `FB`, only the two framer commands write `IDX`, only `FRM.NEXT` appends to `SINK`. -/
def Obligations.CommandsWriteOnlyTheirState : Prop :=
  ∀ (i : Instr) (s t : State), exec i s = .next t →
    t.inputs = s.inputs ∧
    (i ≠ .frmNext → t.sink = s.sink) ∧
    ((∀ (ts : Word) (x y z ang : Half), i ≠ .frmEncode ts x y z ang) →
      t.fb = s.fb ∧ (∀ a : Nat, Memory.lookup t.fb a = Memory.lookup s.fb a) ∧
      (i ≠ .frmNext → t.idx = s.idx) ∧
      (i ≠ .crcInit → (∀ b : Byte, i ≠ .crcByte b) → t.acc = s.acc))

/-- `SINK` is only ever appended to, one byte at a step that runs `FRM.NEXT` with a frame pending (R20). -/
def Obligations.SinkIsOnlyAppendedTo : Prop :=
  ∀ s t : State, step s = .next t →
    t.sink = s.sink ∨
      (s.idx.val < 23 ∧ t.sink = s.sink ++ [s.frameByte s.idx.val] ∧
        ∃ (p : PortsIn) (rest : List PortsIn), s.inputs = p :: rest ∧ p.rst = false ∧
          decode p.cmd.bundle = .frmNext)

/-- How `IDX` moves at a step (R12): to 23 on reset, to 0 by an `FRM.ENCODE` that found it at 23, up by one and never past
23 by `FRM.NEXT`, and by nothing else. -/
def Obligations.IdxMovesAsTheRuleSays : Prop :=
  ∀ (s t : State) (p : PortsIn) (rest : List PortsIn), s.inputs = p :: rest → step s = .next t →
    (p.rst = true → t.idx.val = 23) ∧
    (p.rst = false → decode p.cmd.bundle = .frmNext → t.idx.val = min (s.idx.val + 1) 23) ∧
    (p.rst = false → (∃ (ts : Word) (x y z ang : Half), decode p.cmd.bundle = .frmEncode ts x y z ang) →
      s.idx.val = 23 ∧ t.idx.val = 0) ∧
    (p.rst = false → decode p.cmd.bundle ≠ .frmNext →
      (∀ (ts : Word) (x y z ang : Half), decode p.cmd.bundle ≠ .frmEncode ts x y z ang) → t.idx = s.idx)

/-- A packet is immutable once built (R11): a trace without `FRM.ENCODE` leaves every byte of `FB` as it was. -/
def Obligations.FrameIsImmutableOnceBuilt : Prop :=
  ∀ (t : List Instr) (s u : State), (∀ i ∈ t, ∀ (ts : Word) (x y z ang : Half), i ≠ .frmEncode ts x y z ang) →
    runTrace t s = .next u → u.fb = s.fb

/-- The accumulator is shared one way (R177): an `FRM.ENCODE` inside a message loses the message's CRC, while CRC commands
do not disturb a pending frame. -/
def Obligations.AccumulatorIsShared : Prop :=
  (∀ (ts : Word) (x y z ang : Half) (a b : Byte) (s : State), s.idx.val = 23 →
    ∃ t : State, runTrace [.crcInit, .crcByte a, .frmEncode ts x y z ang, .crcByte b] s = .next t ∧
      t.acc = crcByte (crc16 ((encodePorts Config.hardware ts x y z ang).take 21)) b) ∧
  (∀ (t : List Instr) (s : State), (∀ i ∈ t, i = .crcInit ∨ ∃ b : Byte, i = .crcByte b) →
    ∃ u : State, runTrace t s = .next u ∧ u.fb = s.fb ∧ u.idx = s.idx ∧ u.sink = s.sink) ∧
  ∃ t : State, runTrace [.crcInit, .crcByte 0x01, .frmEncode 0 200 0 1500 0, .crcByte 0x03] State.reset = .next t ∧
    t.acc ≠ crc16 [0x01, 0x03]

/-- What `ACC` holds never reaches `FB`, `IDX` or `SINK`: two states that differ in `ACC` alone step alike in everything
else (R110: `FRM.ENCODE` sets `ACC` before it reads it). -/
def Obligations.AccNeverReachesTheSink : Prop :=
  (∀ (s t : State) (a : Half), step s = .next t →
    ∃ u : State, step (s.setAcc a) = .next u ∧ u.fb = t.fb ∧ u.idx = t.idx ∧ u.sink = t.sink ∧
      u.inputs = t.inputs) ∧
  ∀ (s : State) (a : Half) (r : Refusal), step s = .refused r → step (s.setAcc a) = .refused r

/-! Invariants. -/

/-- Every step keeps the frame invariant: while a frame is pending, `FB` holds a complete well-formed frame (R26). -/
def Obligations.StepKeepsTheFrameWhole : Prop :=
  ∀ s t : State, FrameInv Config.hardware s → step s = .next t → FrameInv Config.hardware t

/-- The same in every configuration (R26, R4). -/
def Obligations.EveryConfigurationKeepsTheFrameWhole : Prop :=
  ∀ (c : Config) (s t : State), FrameInv c s → stepWith c s = .next t → FrameInv c t

/-- Every step keeps the canonical form of `FB`: addresses strictly rising, all of them 0 to 22 (R30). -/
def Obligations.StepKeepsTheMemoryCanonical : Prop :=
  ∀ s t : State, Memory.wf s.fb = true → step s = .next t → Memory.wf t.fb = true

/-- While a frame is pending, `SINK` ends with the bytes of it already sent, and every step keeps it so (R12). -/
def Obligations.StepKeepsTheSentBytes : Prop :=
  ∀ s t : State, FrameInv Config.hardware s → SentInv s → step s = .next t → SentInv t

/-- The reset state meets the invariants. -/
def Obligations.ResetMeetsTheInvariants : Prop :=
  FrameInv Config.hardware State.reset ∧ SentInv State.reset ∧ Memory.wf State.reset.fb = true

/-! The framer's functions (41_framer.md). -/

/-- `trunc_N(v)` is the one residue of `v` below 2^N; it is `v` itself in the unsigned range and its two's complement
encoding in the signed range (R7). -/
def Obligations.TruncIsTheResidue : Prop :=
  (∀ (n : Nat) (v : Int) (r : BitVec n), r = trunc n v ↔ (r.toNat : Int) % 2 ^ n = v % 2 ^ n) ∧
  (∀ (n : Nat) (v : Int), 0 ≤ v → v < 2 ^ n → ((trunc n v).toNat : Int) = v) ∧
  ∀ (n : Nat) (v : Int), 0 < n → -(2 ^ (n - 1)) ≤ v → v < 2 ^ (n - 1) → asSigned n (trunc n v).toNat = v

/-- `f_ts`: four bytes, least significant first, of the timestamp modulo 2^32 (R100). -/
def Obligations.TimestampField : Prop :=
  (∀ ts : Int, fTs ts = leBytes 4 (trunc 32 ts).toNat ∧ (fTs ts).length = 4 ∧ (fromLe (fTs ts) : Int) = ts % 2 ^ 32) ∧
  fTs 0 = [0x00, 0x00, 0x00, 0x00] ∧ fTs 1000 = [0xE8, 0x03, 0x00, 0x00] ∧
  fTs 0x12345678 = [0x78, 0x56, 0x34, 0x12] ∧ fTs (2 ^ 32 - 1) = [0xFF, 0xFF, 0xFF, 0xFF] ∧
  fTs (2 ^ 32) = [0x00, 0x00, 0x00, 0x00]

/-- `f_i16`: two bytes, least significant first, read back exactly within the signed range and wrapped outside it
(R101). -/
def Obligations.CoordinateField : Prop :=
  (∀ v : Int, fI16 v = leBytes 2 (trunc 16 v).toNat ∧ (fI16 v).length = 2 ∧ (fromLe (fI16 v) : Int) = v % 2 ^ 16) ∧
  (∀ v : Int, -32768 ≤ v → v ≤ 32767 → asSigned 16 (fromLe (fI16 v)) = v) ∧
  fI16 0 = [0x00, 0x00] ∧ fI16 200 = [0xC8, 0x00] ∧ fI16 1500 = [0xDC, 0x05] ∧ fI16 (-1) = [0xFF, 0xFF] ∧
  fI16 (-200) = [0x38, 0xFF] ∧ fI16 32767 = [0xFF, 0x7F] ∧ fI16 (-32768) = [0x00, 0x80] ∧
  (fI16 32768 = [0x00, 0x80] ∧ asSigned 16 (fromLe (fI16 32768)) = -32768) ∧
  (fI16 40000 = [0x40, 0x9C] ∧ asSigned 16 (fromLe (fI16 40000)) = -25536) ∧
  (fI16 (-40000) = [0xC0, 0x63] ∧ asSigned 16 (fromLe (fI16 (-40000))) = 25536) ∧
  (fI16 65541 = [0x05, 0x00] ∧ asSigned 16 (fromLe (fI16 65541)) = 5)

/-- `f_angle`: the integer modulo 4096, two bytes, the upper four bits of the second always 0; 3600 passes unchanged and
truncation starts at 4096 (R104, 90_conflicts.md C1). -/
def Obligations.AngleField : Prop :=
  (∀ ang : Int, fAngle ang = leBytes 2 (trunc 16 ang &&& 0x0FFF).toNat ∧ (fAngle ang).length = 2 ∧
    (fromLe (fAngle ang) : Int) = ang % 4096 ∧ ∀ b : Byte, (fAngle ang)[1]? = some b → b.toNat ≤ 0x0F) ∧
  (∀ ang : Int, 0 ≤ ang → ang < 4096 → (fromLe (fAngle ang) : Int) = ang) ∧
  fAngle 0 = [0x00, 0x00] ∧ fAngle 570 = [0x3A, 0x02] ∧ fAngle 1350 = [0x46, 0x05] ∧ fAngle 3599 = [0x0F, 0x0E] ∧
  fAngle 3600 = [0x10, 0x0E] ∧ fAngle 4095 = [0xFF, 0x0F] ∧ fAngle 4096 = [0x00, 0x00] ∧
  (fAngle 4560 = [0xD0, 0x01] ∧ fromLe (fAngle 4560) = 464) ∧ fAngle 65535 = [0xFF, 0x0F] ∧ fAngle (-1) = [0xFF, 0x0F]

/-- The constant bytes of the payload (R102, R103). -/
def Obligations.ConstantFields : Prop :=
  (∀ c : Int, 0 ≤ c → c ≤ 255 → ∃ b : Byte, fU8 c = [b] ∧ (b.toNat : Int) = c) ∧
  fU8 Config.hardware.flags = [0x00] ∧ fU8 Config.hardware.address = [0x0A] ∧ fReserved = [0x00, 0x00]

/-- How a packet is put together (R105 to R108), with the end-to-end example. -/
def Obligations.PacketComposition : Prop :=
  (∀ (c : Config) (ts x y z ang : Int),
    payload c ts x y z ang =
      fTs ts ++ fI16 x ++ fI16 y ++ fI16 z ++ fU8 c.flags ++ fU8 c.address ++ fAngle ang ++ fReserved ∧
    (payload c ts x y z ang).length = 16 ∧
    body c ts x y z ang = [0xFF, 0x47, 0x01, 0x00, 0x10] ++ payload c ts x y z ang ∧
    (body c ts x y z ang).length = 21 ∧
    trailer c ts x y z ang = leBytes 2 (crc16 (body c ts x y z ang)).toNat ∧
    encodePacket c ts x y z ang = body c ts x y z ang ++ trailer c ts x y z ang ∧
    (encodePacket c ts x y z ang).length = 23) ∧
  encodePacket Config.hardware 0 200 0 1500 0 =
    [0xFF, 0x47, 0x01, 0x00, 0x10, 0x00, 0x00, 0x00, 0x00, 0xC8, 0x00, 0x00, 0x00, 0xDC, 0x05, 0x00, 0x0A, 0x00, 0x00,
      0x00, 0x00, 0xA9, 0xCC]

/-- The properties of every packet (R109): length, header, CRC self-consistency, residue, field round trips, angle masking,
constants, periodicity in each operand. -/
def Obligations.PacketProperties : Prop :=
  ∀ (c : Config) (ts x y z ang : Int) (p : List Byte), c.wellFormed = true → p = encodePacket c ts x y z ang →
    p.length = 23 ∧ p.take 5 = [0xFF, 0x47, 0x01, 0x00, 0x10] ∧
    (crc16 (p.take 21)).toNat = fromLe (p.drop 21) ∧ crc16 p = 0x0000 ∧
    (-32768 ≤ x → x ≤ 32767 → asSigned 16 (fromLe ((p.drop 9).take 2)) = x) ∧
    (-32768 ≤ y → y ≤ 32767 → asSigned 16 (fromLe ((p.drop 11).take 2)) = y) ∧
    (-32768 ≤ z → z ≤ 32767 → asSigned 16 (fromLe ((p.drop 13).take 2)) = z) ∧
    (0 ≤ ts → ts < 2 ^ 32 → (fromLe ((p.drop 5).take 4) : Int) = ts) ∧
    (fromLe ((p.drop 17).take 2) : Int) = ang % 4096 ∧
    fromLe ((p.drop 17).take 2) &&& 0x0FFF = fromLe ((p.drop 17).take 2) ∧
    (∃ f a : Byte, p[15]? = some f ∧ (f.toNat : Int) = c.flags ∧ p[16]? = some a ∧ (a.toNat : Int) = c.address) ∧
    p[19]? = some 0x00 ∧ p[20]? = some 0x00 ∧
    ∀ k1 k2 k3 k4 k5 : Int, p =
      encodePacket c (ts + 2 ^ 32 * k1) (x + 65536 * k2) (y + 65536 * k3) (z + 65536 * k4) (ang + 4096 * k5)

/-! The frame buffer, the ports and the trace language. -/

/-- `MemWrite` then `MemRead` (R31, R32): within their domain the write succeeds, the read gives the value back, byte `j` of
the value stands at `a + j`, and nothing else changes; outside it both answer the fault of log entry 7. -/
def Obligations.MemWriteThenMemRead : Prop :=
  (∀ (s : State) (a n : Nat) (v : BitVec (8 * n)), (n = 1 ∨ n = 2 ∨ n = 4) → a + n ≤ 23 →
    ∃ t : State, memWrite s a n v = .ok t ∧ memRead t a n = .ok v ∧
      (∀ j : Nat, j < n → Memory.lookup t.fb (a + j) = some (v.extractLsb' (8 * j) 8)) ∧
      (∀ k : Nat, k < a ∨ a + n ≤ k → Memory.lookup t.fb k = Memory.lookup s.fb k) ∧
      t.acc = s.acc ∧ t.idx = s.idx ∧ t.sink = s.sink ∧ t.inputs = s.inputs) ∧
  ∀ (s : State) (a n : Nat) (v : BitVec (8 * n)), ¬((n = 1 ∨ n = 2 ∨ n = 4) ∧ a + n ≤ 23) →
    memWrite s a n v = .error (.frameAddress a n) ∧ memRead s a n = .error (.frameAddress a n)

/-- The output ports (R18): functions of the stored state; `frm_ready` is always the complement of `dvalid`; the byte
`FRM.NEXT` emits is the one `dout` shows before it. -/
def Obligations.OutputPorts : Prop :=
  (∀ (s : State) (read : Nat),
    (s.outputs read).crcOut = s.acc ∧ ((s.outputs read).dvalid = true ↔ s.idx.val < 23) ∧
    ((s.outputs read).dlast = true ↔ s.idx.val = 22) ∧ ((s.outputs read).frmReady = true ↔ s.idx.val = 23) ∧
    (s.outputs read).frmReady = !(s.outputs read).dvalid ∧
    (s.idx.val < 23 → (s.outputs read).dout = s.frameByte s.idx.val)) ∧
  ∀ (s t : State) (read : Nat), s.idx.val < 23 → exec .frmNext s = .next t →
    t.sink = s.sink ++ [(s.outputs read).dout]

/-- A written location shows its byte, so no free value reaches a host that follows R24. -/
def Obligations.PendingFrameShowsItsBytes : Prop :=
  ∀ (c : Config) (s : State) (read : Nat), FrameInv c s → s.idx.val < 23 →
    Memory.lookup s.fb s.idx.val = some (s.dout read)

/-- The assembler (R65): the fields of a sample are truncated, the operand of `CRC.BYTE` is rejected outside 0 to 255; and
the lines of the rule's example are read as the commands they spell. -/
def Obligations.AssemblerTruncatesSamplesAndRejectsBytes : Prop :=
  (∀ (s : State) (ts x y z ang : Int), (TraceLine.frmEncode ts x y z ang).expand s =
    some [.frmEncode (trunc 32 ts) (trunc 16 x) (trunc 16 y) (trunc 16 z) (trunc 16 ang)]) ∧
  (∀ (s : State) (b : Int), 0 ≤ b → b ≤ 255 → (TraceLine.crcByte b).expand s = some [.crcByte (trunc 8 b)]) ∧
  (∀ (s : State) (b : Int), b < 0 ∨ 255 < b → (TraceLine.crcByte b).expand s = none) ∧
  readLine "CRC.BYTE  0x31                     ; din = 0x31".toList = some (some (.crcByte 0x31)) ∧
  readLine "FRM.ENCODE ts=0, x=200, y=0, z=1500, ang=0".toList = some (some (.frmEncode 0 200 0 1500 0)) ∧
  readLine "crc.init".toList = none

/-- A run is complete exactly when it ends with no frame pending and no refusal, and its observation is (`SINK`,
`crc_out`) (R184). -/
def Obligations.CompleteRunIsObserved : Prop :=
  ∀ (o : Host.Outcome State Fault Refusal) (k : List Byte) (c : Half),
    observation o = some (k, c) ↔ ∃ s : State, o = .next s ∧ s.idx.val = 23 ∧ k = s.sink ∧ c = s.crcOut
end

