-- ==== Sys2Proof/Laws/Bytes.lean ====
section
/-! SUPPORT. Byte sequences: lengths, elements and values of `le_k`. -/

namespace Sys2Proof.Machine

@[simp] theorem leBytes_length (k v : Nat) : (leBytes k v).length = k := by
  induction k generalizing v with
  | zero => rfl
  | succ k ih => simp [leBytes, ih]

theorem leBytes_getElem? (k v j : Nat) (h : j < k) :
    (leBytes k v)[j]? = some (BitVec.ofNat 8 (v >>> (8 * j))) := by
  induction k generalizing v j with
  | zero => omega
  | succ k ih =>
    cases j with
    | zero => simp [leBytes]
    | succ j =>
      rw [leBytes, List.getElem?_cons_succ, ih _ _ (by omega), ← Nat.shiftRight_add]
      congr 3
      omega

theorem fromLe_leBytes (k v : Nat) : fromLe (leBytes k v) = v % 2 ^ (8 * k) := by
  induction k generalizing v with
  | zero => simp [leBytes, fromLe, Nat.mod_one]
  | succ k ih =>
    simp only [leBytes, fromLe, ih, BitVec.toNat_ofNat, Nat.shiftRight_eq_div_pow]
    rw [show 2 ^ (8 * (k + 1)) = 2 ^ 8 * 2 ^ (8 * k) by rw [← pow_add]; congr 1; omega, Nat.mod_mul]
    norm_num

theorem fromLe_lt (s : List Byte) : fromLe s < 2 ^ (8 * s.length) := by
  induction s with
  | nil => simp [fromLe]
  | cons b s ih =>
    have hb := b.isLt
    have : 2 ^ (8 * (s.length + 1)) = 256 * 2 ^ (8 * s.length) := by
      rw [show 8 * (s.length + 1) = 8 + 8 * s.length by omega, pow_add]
      norm_num
    simp only [fromLe, List.length_cons]
    omega

theorem leBytes_fromLe (s : List Byte) : leBytes s.length (fromLe s) = s := by
  induction s with
  | nil => rfl
  | cons b s ih =>
    have hb := b.isLt
    have hd : (b.toNat + 256 * fromLe s) >>> 8 = fromLe s := by
      rw [Nat.shiftRight_eq_div_pow]
      omega
    have hm : BitVec.ofNat 8 (b.toNat + 256 * fromLe s) = b := by
      apply BitVec.eq_of_toNat_eq
      simp only [BitVec.toNat_ofNat]
      omega
    simp only [fromLe, List.length_cons, leBytes, hd, hm, ih]

end Sys2Proof.Machine
end

