-- ==== Sys2Proof/Laws/Decode.lean ====
section
/-! SUPPORT. The bits of a bundle, and that a bundle made of port values gives the port values back. -/

namespace Sys2Proof

/-- Bit `k` of a bundle, port by port from `op` up (30_encoding.md R58). -/
theorem CmdPorts.bundle_getLsbD (p : CmdPorts) (k : Nat) :
    p.bundle.getLsbD k =
      if k < 3 then p.op.getLsbD k
      else if k - 3 < 8 then p.din.getLsbD (k - 3)
      else if k - 3 - 8 < 32 then p.ts.getLsbD (k - 3 - 8)
      else if k - 3 - 8 - 32 < 16 then p.x.getLsbD (k - 3 - 8 - 32)
      else if k - 3 - 8 - 32 - 16 < 16 then p.y.getLsbD (k - 3 - 8 - 32 - 16)
      else if k - 3 - 8 - 32 - 16 - 16 < 16 then p.z.getLsbD (k - 3 - 8 - 32 - 16 - 16)
      else p.ang.getLsbD (k - 3 - 8 - 32 - 16 - 16 - 16) := by
  rw [← BitVec.getLsbD_append, ← BitVec.getLsbD_append, ← BitVec.getLsbD_append, ← BitVec.getLsbD_append,
    ← BitVec.getLsbD_append, ← BitVec.getLsbD_append]
  rfl

theorem CmdPorts.ofBundle_bundle (p : CmdPorts) : CmdPorts.ofBundle p.bundle = p := by
  obtain ⟨op, din, ts, x, y, z, ang⟩ := p
  simp only [CmdPorts.ofBundle, CmdPorts.mk.injEq]
  refine ⟨?_, ?_, ?_, ?_, ?_, ?_, ?_⟩ <;>
    (ext i hi
     simp (disch := omega) only [BitVec.getElem_extractLsb', CmdPorts.bundle_getLsbD, if_pos, if_neg]
     rw [← BitVec.getLsbD_eq_getElem hi]
     congr 1
     omega)

theorem decode_bundle (p : CmdPorts) : decode p.bundle = p.decode := by
  rw [decode, CmdPorts.ofBundle_bundle]

end Sys2Proof
end

