-- ==== Sys2Proof/Laws/State.lean ====
section
/-! SUPPORT. One lemma per field per update of the state. -/

namespace Sys2Proof.Machine

@[simp] theorem State.setAcc_acc (s : State) (v : Half) : (s.setAcc v).acc = v := rfl
@[simp] theorem State.setAcc_fb (s : State) (v : Half) : (s.setAcc v).fb = s.fb := rfl
@[simp] theorem State.setAcc_idx (s : State) (v : Half) : (s.setAcc v).idx = s.idx := rfl
@[simp] theorem State.setAcc_sink (s : State) (v : Half) : (s.setAcc v).sink = s.sink := rfl
@[simp] theorem State.setAcc_inputs (s : State) (v : Half) : (s.setAcc v).inputs = s.inputs := rfl

@[simp] theorem State.setFb_acc (s : State) (m : Memory) : (s.setFb m).acc = s.acc := rfl
@[simp] theorem State.setFb_fb (s : State) (m : Memory) : (s.setFb m).fb = m := rfl
@[simp] theorem State.setFb_idx (s : State) (m : Memory) : (s.setFb m).idx = s.idx := rfl
@[simp] theorem State.setFb_sink (s : State) (m : Memory) : (s.setFb m).sink = s.sink := rfl
@[simp] theorem State.setFb_inputs (s : State) (m : Memory) : (s.setFb m).inputs = s.inputs := rfl

@[simp] theorem State.setIdx_acc (s : State) (i : Fin 24) : (s.setIdx i).acc = s.acc := rfl
@[simp] theorem State.setIdx_fb (s : State) (i : Fin 24) : (s.setIdx i).fb = s.fb := rfl
@[simp] theorem State.setIdx_idx (s : State) (i : Fin 24) : (s.setIdx i).idx = i := rfl
@[simp] theorem State.setIdx_sink (s : State) (i : Fin 24) : (s.setIdx i).sink = s.sink := rfl
@[simp] theorem State.setIdx_inputs (s : State) (i : Fin 24) : (s.setIdx i).inputs = s.inputs := rfl

@[simp] theorem State.setInputs_acc (s : State) (ps : List PortsIn) : (s.setInputs ps).acc = s.acc := rfl
@[simp] theorem State.setInputs_fb (s : State) (ps : List PortsIn) : (s.setInputs ps).fb = s.fb := rfl
@[simp] theorem State.setInputs_idx (s : State) (ps : List PortsIn) : (s.setInputs ps).idx = s.idx := rfl
@[simp] theorem State.setInputs_sink (s : State) (ps : List PortsIn) : (s.setInputs ps).sink = s.sink := rfl
@[simp] theorem State.setInputs_inputs (s : State) (ps : List PortsIn) : (s.setInputs ps).inputs = ps := rfl

@[simp] theorem State.emit_acc (s : State) (b : Byte) : (s.emit b).acc = s.acc := rfl
@[simp] theorem State.emit_fb (s : State) (b : Byte) : (s.emit b).fb = s.fb := rfl
@[simp] theorem State.emit_idx (s : State) (b : Byte) : (s.emit b).idx = s.idx := rfl
@[simp] theorem State.emit_sink (s : State) (b : Byte) : (s.emit b).sink = s.sink ++ [b] := rfl
@[simp] theorem State.emit_inputs (s : State) (b : Byte) : (s.emit b).inputs = s.inputs := rfl

@[simp] theorem resetStep_acc (s : State) : (resetStep s).acc = crcInit := rfl
@[simp] theorem resetStep_fb (s : State) : (resetStep s).fb = [] := rfl
@[simp] theorem resetStep_idx (s : State) : (resetStep s).idx = 23 := rfl
@[simp] theorem resetStep_sink (s : State) : (resetStep s).sink = s.sink := rfl
@[simp] theorem resetStep_inputs (s : State) : (resetStep s).inputs = s.inputs := rfl

end Sys2Proof.Machine
end

