-- ==== Sys2Proof/Laws/Memory.lean ====
section
/-! SUPPORT. The frame buffer: what a read finds after a write, and that every operation keeps the canonical form. -/

namespace Sys2Proof.Machine

theorem frameLen_eq : frameLen = 23 := rfl

theorem Memory.lookup_put (m : Memory) (a k : Nat) (b : Byte) :
    Memory.lookup (Memory.put m a b) k = if a = k then some b else Memory.lookup m k := by
  induction m with
  | nil => simp [Memory.put, Memory.lookup]
  | cons e m ih =>
    obtain ⟨i, v⟩ := e
    simp only [Memory.put]
    split
    · simp [Memory.lookup]
    · split
      · next h =>
        subst h
        simp only [Memory.lookup]
        split <;> rfl
      · next h =>
        simp only [Memory.lookup, ih]
        split
        · next h' => simp [show a ≠ k by omega]
        · rfl

theorem Memory.wfFrom_put (m : Memory) (lo a : Nat) (b : Byte) (hm : Memory.wfFrom lo m = true) (hlo : lo ≤ a)
    (ha : a < 23) : Memory.wfFrom lo (Memory.put m a b) = true := by
  induction m generalizing lo with
  | nil => simp [Memory.put, Memory.wfFrom, frameLen_eq, hlo, ha]
  | cons e m ih =>
    obtain ⟨i, v⟩ := e
    simp only [Memory.wfFrom, Bool.and_eq_true, decide_eq_true_eq] at hm
    have hi : i < 23 := hm.1.2
    simp only [Memory.put]
    split
    · simp only [Memory.wfFrom, Bool.and_eq_true, decide_eq_true_eq]
      exact ⟨⟨hlo, ha⟩, ⟨by omega, hi⟩, hm.2⟩
    · split
      · next h =>
        subst h
        simp only [Memory.wfFrom, Bool.and_eq_true, decide_eq_true_eq]
        exact hm
      · simp only [Memory.wfFrom, Bool.and_eq_true, decide_eq_true_eq]
        exact ⟨hm.1, ih _ hm.2 (by omega)⟩

theorem Memory.lookup_putBytes (m : Memory) (a k : Nat) (s : List Byte) :
    Memory.lookup (Memory.putBytes m a s) k =
      if a ≤ k ∧ k < a + s.length then s[k - a]? else Memory.lookup m k := by
  induction s generalizing m a with
  | nil => simp [Memory.putBytes]
  | cons b s ih =>
    simp only [Memory.putBytes, ih, Memory.lookup_put, List.length_cons]
    rcases Nat.lt_trichotomy k a with h | h | h
    · rw [if_neg (by omega), if_neg (by omega), if_neg (by omega)]
    · subst h
      rw [if_neg (by omega), if_pos rfl, if_pos (by omega)]
      simp
    · by_cases h' : k < a + 1 + s.length
      · rw [if_pos (by omega), if_pos (by omega), show k - a = (k - (a + 1)) + 1 by omega,
          List.getElem?_cons_succ]
      · rw [if_neg (by omega), if_neg (by omega), if_neg (by omega)]

theorem Memory.putBytes_append (m : Memory) (a : Nat) (s t : List Byte) :
    Memory.putBytes m a (s ++ t) = Memory.putBytes (Memory.putBytes m a s) (a + s.length) t := by
  induction s generalizing m a with
  | nil => rfl
  | cons b s ih =>
    simp only [List.cons_append, Memory.putBytes, ih, List.length_cons]
    congr 1
    omega

theorem Memory.wf_putBytes (m : Memory) (a : Nat) (s : List Byte) (hm : Memory.wf m = true)
    (ha : a + s.length ≤ 23) : Memory.wf (Memory.putBytes m a s) = true := by
  induction s generalizing m a with
  | nil => exact hm
  | cons b s ih =>
    simp only [List.length_cons] at ha
    exact ih _ _ (Memory.wfFrom_put m 0 a b hm (by omega) (by omega)) (by omega)

theorem accessOk_iff (a n : Nat) : accessOk a n = true ↔ (n = 1 ∨ n = 2 ∨ n = 4) ∧ a + n ≤ 23 := by
  simp only [accessOk, Bool.and_eq_true, Bool.or_eq_true, decide_eq_true_eq, or_assoc]
  exact Iff.rfl

/-- Everything `memWrite` can do. -/
theorem memWrite_cases (s : State) (a n : Nat) (v : BitVec (8 * n)) :
    (accessOk a n = true ∧ memWrite s a n v = .ok (s.setFb (Memory.putBytes s.fb a (leBytes n v.toNat)))) ∨
      (accessOk a n = false ∧ memWrite s a n v = .error (.frameAddress a n)) := by
  cases h : accessOk a n <;> simp [memWrite, h]

/-- Everything `memRead` can do. -/
theorem memRead_cases (s : State) (a n : Nat) :
    (accessOk a n = true ∧ memRead s a n = .ok (BitVec.ofNat (8 * n) (fromLe (s.frameBytes a n)))) ∨
      (accessOk a n = false ∧ memRead s a n = .error (.frameAddress a n)) := by
  cases h : accessOk a n <;> simp [memRead, h]

theorem memWrite_wf (s t : State) (a n : Nat) (v : BitVec (8 * n)) (hs : Memory.wf s.fb = true)
    (h : memWrite s a n v = .ok t) : Memory.wf t.fb = true := by
  rcases memWrite_cases s a n v with ⟨ok, e⟩ | ⟨_, e⟩
  · rw [e] at h
    cases h
    exact Memory.wf_putBytes _ _ _ hs (by simpa using ((accessOk_iff a n).1 ok).2)
  · rw [e] at h
    cases h

theorem memWriteAll_wf (ws : List Store) (s t : State) (hs : Memory.wf s.fb = true)
    (h : memWriteAll ws s = .ok t) : Memory.wf t.fb = true := by
  induction ws generalizing s with
  | nil =>
    cases h
    exact hs
  | cons w ws ih =>
    simp only [memWriteAll] at h
    split at h
    · cases h
    · next u hu => exact ih u (memWrite_wf s u _ _ _ hs hu) h

theorem resetStep_wf (s : State) : Memory.wf (resetStep s).fb = true := rfl

theorem reset_wf : Memory.wf State.reset.fb = true := rfl

@[simp] theorem State.frameBytes_length (s : State) (a n : Nat) : (s.frameBytes a n).length = n := by
  induction n generalizing a with
  | zero => rfl
  | succ n ih => simp [State.frameBytes, ih]

theorem State.frameBytes_getElem? (s : State) (a n j : Nat) (h : j < n) :
    (s.frameBytes a n)[j]? = some (s.frameByte (a + j)) := by
  induction n generalizing a j with
  | zero => omega
  | succ n ih =>
    cases j with
    | zero => simp [State.frameBytes]
    | succ j =>
      rw [State.frameBytes, List.getElem?_cons_succ, ih _ _ (by omega)]
      congr 2
      omega

theorem State.frameBytes_add (s : State) (a n m : Nat) :
    s.frameBytes a (n + m) = s.frameBytes a n ++ s.frameBytes (a + n) m := by
  induction n generalizing a with
  | zero => simp [State.frameBytes]
  | succ n ih =>
    rw [show n + 1 + m = (n + m) + 1 by omega, show a + (n + 1) = a + 1 + n by omega]
    simp only [State.frameBytes, ih, List.cons_append]

theorem State.frameByte_of_lookup (s : State) (a : Nat) (b : Byte) (h : Memory.lookup s.fb a = some b) :
    s.frameByte a = b := by
  simp [State.frameByte, h]

/-- A stretch of `FB` that is written reads as the bytes written. -/
theorem State.frameBytes_of_lookup (s : State) (a : Nat) (bs : List Byte)
    (h : ∀ j, j < bs.length → Memory.lookup s.fb (a + j) = bs[j]?) : s.frameBytes a bs.length = bs := by
  apply List.ext_getElem?
  intro j
  by_cases hj : j < bs.length
  · rw [State.frameBytes_getElem? _ _ _ _ hj, List.getElem?_eq_getElem hj]
    have := h j hj
    rw [List.getElem?_eq_getElem hj] at this
    rw [State.frameByte_of_lookup _ _ _ this]
  · rw [List.getElem?_eq_none (by simpa using hj), List.getElem?_eq_none (by simpa using hj)]

/-- A single-byte `MemRead` in `FB` is the byte of the location (41_framer.md R115). -/
theorem memRead_byte (s : State) (a : Nat) (h : a < 23) : memRead s a 1 = .ok (s.frameByte a) := by
  have : accessOk a 1 = true := (accessOk_iff a 1).2 ⟨.inl rfl, by omega⟩
  rcases memRead_cases s a 1 with ⟨_, e⟩ | ⟨no, _⟩
  · rw [e]
    congr 1
    simp [State.frameBytes, fromLe]
  · simp [this] at no

end Sys2Proof.Machine
end

