-- ==== Sys2Proof/Laws/Framer.lean ====
section
/-! SUPPORT. What `FRM.ENCODE` and `FRM.NEXT` do, said once: the stores of a frame are one write of the packet, and each
command's outcomes are listed whole. -/

namespace Sys2Proof.Machine

/-- The bytes a list of stores writes, in order. -/
def storeBytes (ws : List Store) : List Byte := ws.flatMap fun w => leBytes w.width w.value.toNat

/-- The stores touch one stretch of `FB` from `a` on, each within the domain of `MemWrite`. -/
def storesFrom : Nat → List Store → Bool
  | _, [] => true
  | a, w :: ws => decide (w.addr = a) && accessOk w.addr w.width && storesFrom (a + w.width) ws

theorem memWriteAll_of_storesFrom (ws : List Store) (a : Nat) (s : State) (h : storesFrom a ws = true) :
    memWriteAll ws s = .ok (s.setFb (Memory.putBytes s.fb a (storeBytes ws))) := by
  induction ws generalizing a s with
  | nil => rfl
  | cons w ws ih =>
    simp only [storesFrom, Bool.and_eq_true, decide_eq_true_eq] at h
    obtain ⟨⟨rfl, ok⟩, rest⟩ := h
    rcases memWrite_cases s w.addr w.width w.value with ⟨_, e⟩ | ⟨no, _⟩
    · simp only [memWriteAll, e, ih _ _ rest, storeBytes, List.flatMap_cons, Memory.putBytes_append,
        leBytes_length, State.setFb_fb]
      rfl
    · simp [ok] at no

theorem trunc_toNat (n : Nat) (v : BitVec n) : trunc n (v.toNat : Int) = v := by
  simp [trunc]

theorem leBytes_one (b : Byte) : leBytes 1 b.toNat = [b] := by
  simp [leBytes]

theorem storeBytes_frame (c : Config) (ts : Word) (x y z ang : Half) :
    storeBytes (headerStores ++ payloadStores c ts x y z ang) =
      body c ts.toNat x.toNat y.toNat z.toNat ang.toNat := by
  simp only [storeBytes, headerStores, header, byteStores, payloadStores, List.flatMap_cons,
    List.flatMap_nil, leBytes_one, body, payload, fTs, fI16, fU8, fAngle, fReserved, trunc_toNat,
    List.append_assoc, List.cons_append, List.nil_append, List.append_nil]

theorem storesFrom_frame (c : Config) (ts : Word) (x y z ang : Half) :
    storesFrom 0 (headerStores ++ payloadStores c ts x y z ang) = true := rfl

theorem fTs_length (ts : Int) : (fTs ts).length = 4 := leBytes_length _ _

theorem fI16_length (v : Int) : (fI16 v).length = 2 := leBytes_length _ _

theorem fAngle_length (v : Int) : (fAngle v).length = 2 := leBytes_length _ _

theorem body_length (c : Config) (ts x y z ang : Int) : (body c ts x y z ang).length = 21 := by
  simp [body, payload, fTs_length, fI16_length, fAngle_length, fU8, fReserved, header]

theorem trailer_length (c : Config) (ts x y z ang : Int) : (trailer c ts x y z ang).length = 2 := leBytes_length _ _

/-- Writing a sequence and reading the same stretch gives the sequence. -/
theorem frameBytes_putBytes (s : State) (bs : List Byte) (a : Nat) :
    (s.setFb (Memory.putBytes s.fb a bs)).frameBytes a bs.length = bs := by
  apply State.frameBytes_of_lookup
  intro j hj
  rw [State.setFb_fb, Memory.lookup_putBytes, if_pos (by omega)]
  congr 1
  omega

/-- Everything `FRM.ENCODE` can do, in any configuration. -/
theorem frmEncodeWith_cases (c : Config) (ts : Word) (x y z ang : Half) (s : State) :
    (s.idx.val = 23 ∧
      frmEncodeWith c ts x y z ang s =
        .next { s with
          acc := crc16 (body c ts.toNat x.toNat y.toNat z.toNat ang.toNat)
          fb := Memory.putBytes s.fb 0 (encodePorts c ts x y z ang)
          idx := 0 }) ∨
      (s.idx.val ≠ 23 ∧ frmEncodeWith c ts x y z ang s = .refused .frameBusy) := by
  by_cases h : s.idx.val = 23
  · refine .inl ⟨h, ?_⟩
    have hb := frameBytes_putBytes s (body c ts.toNat x.toNat y.toNat z.toNat ang.toNat) 0
    rw [body_length, State.setFb] at hb
    have hw : ∀ (t : State) (v : Half), memWrite t 21 2 v = .ok (t.setFb (Memory.putBytes t.fb 21 (leBytes 2 v.toNat))) :=
      fun _ _ => rfl
    simp only [frmEncodeWith, h, if_true, memWriteAll_of_storesFrom _ 0 s (storesFrom_frame c ts x y z ang),
      storeBytes_frame, show crcSpan = 21 from rfl, hb, hw, encodePorts, encodePacket, trailer, crc16,
      Memory.putBytes_append, body_length, Nat.zero_add, State.setFb, State.setAcc, State.setIdx]
  · exact .inr ⟨h, by simp only [frmEncodeWith, h, if_false]⟩

/-- The next state of `FRM.ENCODE` with no frame pending, field by field. -/
theorem frmEncodeWith_next (c : Config) (ts : Word) (x y z ang : Half) (s : State) (h : s.idx.val = 23) :
    ∃ t, frmEncodeWith c ts x y z ang s = .next t ∧
      t.acc = crc16 (body c ts.toNat x.toNat y.toNat z.toNat ang.toNat) ∧
      t.fb = Memory.putBytes s.fb 0 (encodePorts c ts x y z ang) ∧ t.idx = 0 ∧ t.sink = s.sink ∧
      t.inputs = s.inputs := by
  have e := (frmEncodeWith_cases c ts x y z ang s).elim And.right fun no => absurd h no.1
  rw [e]
  generalize Memory.putBytes s.fb 0 (encodePorts c ts x y z ang) = m
  generalize crc16 (body c ts.toNat x.toNat y.toNat z.toNat ang.toNat) = v
  exact ⟨_, rfl, rfl, rfl, rfl, rfl, rfl⟩

theorem encodePacket_length (c : Config) (ts x y z ang : Int) : (encodePacket c ts x y z ang).length = 23 := by
  simp [encodePacket, body_length, trailer_length]

theorem encodePacket_take (c : Config) (ts x y z ang : Int) :
    (encodePacket c ts x y z ang).take 21 = body c ts x y z ang := by
  rw [encodePacket, List.take_left' (body_length ..)]

theorem encodePacket_drop (c : Config) (ts x y z ang : Int) :
    (encodePacket c ts x y z ang).drop 21 = trailer c ts x y z ang := by
  rw [encodePacket, List.drop_left' (body_length ..)]

theorem fromLe_trailer (c : Config) (ts x y z ang : Int) :
    fromLe (trailer c ts x y z ang) = (crc16 (body c ts x y z ang)).toNat := by
  rw [trailer, fromLe_leBytes]
  exact Nat.mod_eq_of_lt (crc16 _).isLt

/-- What `FB` reads as once a packet is written, whole and in its two parts. -/
theorem frameBytes_packet (c : Config) (ts x y z ang : Int) (m : Memory) (t : State)
    (h : t.fb = Memory.putBytes m 0 (encodePacket c ts x y z ang)) :
    t.frameBytes 0 23 = encodePacket c ts x y z ang ∧ t.frameBytes 0 21 = body c ts x y z ang ∧
      t.frameBytes 21 2 = trailer c ts x y z ang := by
  have whole : t.frameBytes 0 23 = encodePacket c ts x y z ang := by
    have := State.frameBytes_of_lookup t 0 (encodePacket c ts x y z ang) (by
      intro j hj
      rw [h, Memory.lookup_putBytes, if_pos (by omega)]
      simp)
    rwa [encodePacket_length] at this
  have split : t.frameBytes 0 23 = t.frameBytes 0 21 ++ t.frameBytes 21 2 := State.frameBytes_add t 0 21 2
  rw [whole] at split
  refine ⟨whole, ?_, ?_⟩
  · rw [← encodePacket_take, split, List.take_left' (by simp)]
  · rw [← encodePacket_drop, split, List.drop_left' (by simp)]

/-- Everything `FRM.NEXT` can do. -/
theorem execFrmNext_cases (s : State) :
    (∃ h : s.idx.val < 23,
      execFrmNext s =
        .next { s with
          sink := s.sink ++ [s.frameByte s.idx.val]
          idx := ⟨s.idx.val + 1, Nat.succ_lt_succ h⟩ }) ∨
      (s.idx.val = 23 ∧ execFrmNext s = .next s) := by
  by_cases h : s.idx.val < 23
  · exact .inl ⟨h, by rw [execFrmNext, dif_pos h, memRead_byte s _ h]; rfl⟩
  · exact .inr ⟨by omega, by rw [execFrmNext, dif_neg h]⟩

end Sys2Proof.Machine
end

