-- ==== Sys2Proof/Laws/Dispatch.lean ====
section
/-! SUPPORT. What each arm of `exec` is, and everything one step can do. -/

namespace Sys2Proof.Machine

theorem exec_nop (s : State) : exec .nop s = .next s := rfl

theorem exec_crcInit (s : State) : exec .crcInit s = .next { s with acc := crcInit } := rfl

theorem exec_crcByte (b : Byte) (s : State) : exec (.crcByte b) s = .next { s with acc := crcByte s.acc b } := rfl

/-- `FRM.ENCODE` with no frame pending. -/
theorem exec_frmEncode_idle (ts : Word) (x y z ang : Half) (s : State) (h : s.idx.val = 23) :
    exec (.frmEncode ts x y z ang) s =
      .next { s with
        acc := crc16 (body Config.hardware ts.toNat x.toNat y.toNat z.toNat ang.toNat)
        fb := Memory.putBytes s.fb 0 (encodePorts Config.hardware ts x y z ang)
        idx := 0 } := by
  simp only [exec, execFrmEncode]
  exact (frmEncodeWith_cases Config.hardware ts x y z ang s).elim And.right fun no => absurd h no.1

/-- The next state of `FRM.ENCODE` with no frame pending, field by field. -/
theorem exec_frmEncode_next (ts : Word) (x y z ang : Half) (s : State) (h : s.idx.val = 23) :
    ∃ t, exec (.frmEncode ts x y z ang) s = .next t ∧
      t.acc = crc16 (body Config.hardware ts.toNat x.toNat y.toNat z.toNat ang.toNat) ∧
      t.fb = Memory.putBytes s.fb 0 (encodePorts Config.hardware ts x y z ang) ∧ t.idx = 0 ∧ t.sink = s.sink ∧
      t.inputs = s.inputs :=
  frmEncodeWith_next Config.hardware ts x y z ang s h

/-- `FRM.ENCODE` with a frame pending. -/
theorem exec_frmEncode_busy (ts : Word) (x y z ang : Half) (s : State) (h : s.idx.val ≠ 23) :
    exec (.frmEncode ts x y z ang) s = .refused .frameBusy := by
  simp only [exec, execFrmEncode]
  exact (frmEncodeWith_cases Config.hardware ts x y z ang s).elim (fun no => absurd no.1 h) And.right

/-- `FRM.NEXT` with a frame pending. -/
theorem exec_frmNext_pending (s : State) (h : s.idx.val < 23) :
    exec .frmNext s =
      .next { s with
        sink := s.sink ++ [s.frameByte s.idx.val]
        idx := ⟨s.idx.val + 1, Nat.succ_lt_succ h⟩ } := by
  simp only [exec]
  exact (execFrmNext_cases s).elim (fun ⟨_, e⟩ => e) fun no => absurd no.1 (Nat.ne_of_lt h)

/-- `FRM.NEXT` with no frame pending. -/
theorem exec_frmNext_idle (s : State) (h : s.idx.val = 23) : exec .frmNext s = .next s := by
  simp only [exec]
  exact (execFrmNext_cases s).elim (fun ⟨no, _⟩ => absurd h (Nat.ne_of_lt no)) And.right

/-- Everything a step can do around the meanings `run`. -/
theorem cycle_cases (run : Instr → State → Host.Outcome State Fault Refusal) (s : State) :
    (s.inputs = [] ∧ cycle run s = .next s) ∨
      (∃ p rest, s.inputs = p :: rest ∧ p.rst = true ∧ cycle run s = .next (resetStep { s with inputs := rest })) ∨
      (∃ p rest, s.inputs = p :: rest ∧ p.rst = false ∧
        cycle run s = run p.cmd.decode { s with inputs := rest }) := by
  cases h : s.inputs with
  | nil => exact .inl ⟨rfl, by simp only [cycle, h]⟩
  | cons p rest =>
    cases hr : p.rst with
    | true => exact .inr (.inl ⟨p, rest, rfl, hr, by simp [cycle, h, hr, State.setInputs]⟩)
    | false => exact .inr (.inr ⟨p, rest, rfl, hr, by simp [cycle, h, hr, State.setInputs, decode_bundle]⟩)

end Sys2Proof.Machine
end

