-- ==== Sys2Proof/Laws/PerInstr.lean ====
section
/-! SUPPORT. Statements made once per constructor of `Instr`. -/

namespace Sys2Proof.Laws.RoundTrip

/-- The canonical bundle of an instruction decodes to it (30_encoding.md R59 to R61). -/
def Statement (i : Instr) : Prop := decode (encode i) = i

theorem nop : Statement .nop := decode_bundle _

theorem crcInit : Statement .crcInit := decode_bundle _

theorem crcByte (b : Byte) : Statement (.crcByte b) := decode_bundle _

theorem frmEncode (ts : Word) (x y z ang : Half) : Statement (.frmEncode ts x y z ang) := decode_bundle _

theorem frmNext : Statement .frmNext := decode_bundle _

theorem reserved5 : Statement .reserved5 := decode_bundle _

theorem reserved6 : Statement .reserved6 := decode_bundle _

theorem reserved7 : Statement .reserved7 := decode_bundle _

end Sys2Proof.Laws.RoundTrip
end

