-- ==== Sys2Proof/Tests/Slice0.lean ====
section
/-! SUPPORT. The model's own tests. Expected values are copied from spec/ (95_test_vectors.md and the examples of the
rules), never from a run of the model. The second half gives, for each statement with hypotheses, values that meet them
all together. -/

namespace Sys2Proof.Tests

open Sys2Proof Sys2Proof.Machine

/-- The state of an outcome that has one. -/
def stateOf : Host.Outcome State Fault Refusal → State
  | .next s => s
  | .fault _ => State.reset
  | .refused _ => State.reset

/-- The outcome is a next state. -/
def completes : Host.Outcome State Fault Refusal → Bool
  | .next _ => true
  | .fault _ => false
  | .refused _ => false

/-- The reason of a refusal. -/
def refusalOf : Host.Outcome State Fault Refusal → Option Refusal
  | .next _ => none
  | .fault _ => none
  | .refused r => some r

/-- After the source's end-to-end sample is encoded from reset (95_test_vectors.md V3.3-1). -/
def pending : State := stateOf (exec (.frmEncode 0 200 0 1500 0) State.reset)

/-- The same frame with nine bytes sent (95_test_vectors.md P6). -/
def sent9 : State := stateOf (runTrace (List.replicate 9 .frmNext) pending)

/-! Decoding, words written out from 30_encoding.md R58 and R60. -/

/-- NOP: op 000, every ignored field 1. -/
theorem test_decode_nop : decode 0x7FFFFFFFFFFFFFFFFFFFFFFFFF8 = .nop := by decide

/-- CRC.INIT: op 001; P1 step 1. -/
theorem test_decode_crcInit : decode 0x001 = .crcInit := by decide

/-- CRC.BYTE: op 010, din in bits 10 to 3, here 0x31 = 0011 0001; P1 step 2. -/
theorem test_decode_crcByte : decode 0b00110001010 = .crcByte 0x31 := by decide

/-- FRM.ENCODE: op 011 and ts 42:11, x 58:43, y 74:59, z 90:75, ang 106:91; P5 step 5. -/
theorem test_decode_frmEncode :
    decode 0x0707BFFFC0007FFF80000000803 = .frmEncode 1 0xFFFF 0x8000 0x7FFF 3599 := by decide

/-- FRM.NEXT: op 100; P2 step 2. -/
theorem test_decode_frmNext : decode 0x4 = .frmNext := by decide

/-- Codes 5, 6 and 7 are reserved (R62). -/
theorem test_decode_reserved : decode 0x5 = .reserved5 ∧ decode 0x6 = .reserved6 ∧ decode 0x7 = .reserved7 := by decide

/-- P3 step 26: `FRM.ENCODE ts=1000, x=199, y=20, z=1500, ang=60`. -/
theorem test_encode_frmEncode :
    encode (.frmEncode 1000 199 20 1500 60) = 0x001E02EE000A0063800001F4003 := by decide

/-- An ill-formed instruction: a reserved code is no command (R62). -/
theorem test_wellFormed_refuses_reserved :
    Instr.wellFormed .reserved5 = false ∧ Instr.wellFormed .reserved6 = false ∧ Instr.wellFormed .reserved7 = false ∧
      Instr.wellFormed .nop = true := by decide

/-- Ill-formed configurations: each bound of R4 broken alone. -/
theorem test_wellFormed_refuses_config :
    Config.wellFormed ⟨256, 0⟩ = false ∧ Config.wellFormed ⟨-1, 0⟩ = false ∧ Config.wellFormed ⟨10, 256⟩ = false ∧
      Config.wellFormed ⟨10, -1⟩ = false ∧ Config.wellFormed ⟨255, 255⟩ = true := by decide

/-! The instructions. -/

/-- 42_misc.md R130. -/
theorem test_nop : exec .nop sent9 = .next sent9 := rfl

/-- V2.4-6: CRC.INIT with a frame pending. -/
theorem test_crcInit :
    (stateOf (exec .crcInit pending)).acc = 0xFFFF ∧ (stateOf (exec .crcInit pending)).idx = 0 ∧
      (stateOf (exec .crcInit pending)).fb = pending.fb := by decide +kernel

/-- V2.4-3. -/
theorem test_crcByte : (stateOf (exec (.crcByte 0x31) State.reset)).acc = 0x947E := by decide +kernel

/-- V2.1-27: the frame's CRC goes on into a message (P4 step 4). -/
theorem test_crcByte_after_frame : (stateOf (exec (.crcByte 0x03) pending)).acc = 0x7F4C := by decide +kernel

/-- V3.2-6: both ends of the coordinate range. -/
theorem test_frmEncode :
    (stateOf (exec (.frmEncode 1 0xFFFF 0x8000 0x7FFF 3599) State.reset)).frameBytes 0 23 =
      [0xFF, 0x47, 0x01, 0x00, 0x10, 0x01, 0x00, 0x00, 0x00, 0xFF, 0xFF, 0x00, 0x80, 0xFF, 0x7F, 0x00, 0x0A, 0x0F, 0x0E,
        0x00, 0x00, 0x74, 0x1B] := by decide +kernel

/-- V3.3-8: refused while a frame is pending. -/
theorem test_frmEncode_busy : refusalOf (exec (.frmEncode 0 0 0 0 0) sent9) = some .frameBusy := by decide +kernel

/-- V3.3-5: the last byte of the frame. -/
theorem test_frmNext_last :
    (stateOf (runTrace (List.replicate 23 .frmNext) pending)).idx = 23 ∧
      (stateOf (runTrace (List.replicate 23 .frmNext) pending)).sink.drop 21 = [0xA9, 0xCC] := by decide +kernel

/-- V3.3-6: with no frame pending nothing is emitted. -/
theorem test_frmNext_idle : exec .frmNext State.reset = .next State.reset := by
  exact exec_frmNext_idle State.reset rfl

/-- V3.3-10. -/
theorem test_reserved :
    refusalOf (exec .reserved5 pending) = some (.reservedOp 5) ∧
      refusalOf (exec .reserved6 pending) = some (.reservedOp 6) ∧
      refusalOf (exec .reserved7 pending) = some (.reservedOp 7) := by decide +kernel

/-- V3.3-11: a reset step leaves a nine-byte fragment at the sink. -/
theorem test_reset_step :
    (stateOf (step (sent9.present ⟨true, (Instr.reserved6).ports⟩))).acc = 0xFFFF ∧
      (stateOf (step (sent9.present ⟨true, (Instr.reserved6).ports⟩))).idx = 23 ∧
      (stateOf (step (sent9.present ⟨true, (Instr.reserved6).ports⟩))).sink =
        [0xFF, 0x47, 0x01, 0x00, 0x10, 0x00, 0x00, 0x00, 0x00] := by decide +kernel

/-- V3.3-3: the outputs after the fifth byte. -/
theorem test_outputs :
    ((stateOf (runTrace (List.replicate 5 .frmNext) pending)).outputs 0) = ⟨0xCCA9, 0x00, true, false, false⟩ := by
  decide +kernel

/-- V3.2-4: the truncation the source meant to show, 4560 sent as 464 (90_conflicts.md C1). -/
theorem test_angle_truncation : (encodePacket Config.hardware 0 200 0 1500 4560).drop 17 =
    [0xD0, 0x01, 0x00, 0x00, 0xC0, 0xCC] := by decide +kernel

/-- V2.2-8, against the misreadings of section 2.5. -/
theorem test_crc16_check : crc16 [0x31, 0x32, 0x33, 0x34, 0x35, 0x36, 0x37, 0x38, 0x39] = 0x4B37 := by decide +kernel

/-- R65: negative numbers, a comment, and a mnemonic in the wrong case. -/
theorem test_readLine :
    readLine "FRM.SEND ts=0, x=-200, y=0x10, z=1500, ang=0 ; tick".toList = some (some (.frmSend 0 (-200) 16 1500 0)) ∧
      readLine "nop".toList = none ∧ readLine "; only a comment".toList = some none := by decide +kernel

/-- The table's bits of each row, alone, run as the first command after reset (30_encoding.md R60). -/
theorem test_first_command :
    completes (step (State.reset.withFetchWord 112 0)) = true ∧ completes (step (State.reset.withFetchWord 112 1)) = true ∧
      completes (step (State.reset.withFetchWord 112 2)) = true ∧
      completes (step (State.reset.withFetchWord 112 3)) = true ∧
      completes (step (State.reset.withFetchWord 112 4)) = true ∧
      refusalOf (step (State.reset.withFetchWord 112 5)) = some (.reservedOp 5) := by decide +kernel

/-! Witnesses: for each statement with hypotheses, values that meet them. -/

theorem witness_CodeSelectsTheCommand :
    (0x0 : CmdWord).extractLsb' 0 3 = 0 ∧ (0x1 : CmdWord).extractLsb' 0 3 = 1 ∧ (0x18A : CmdWord).extractLsb' 0 3 = 2 ∧
      (0x000002EE0000006400000000003 : CmdWord).extractLsb' 0 3 = 3 ∧ (0x4 : CmdWord).extractLsb' 0 3 = 4 ∧
      (0x5 : CmdWord).extractLsb' 0 3 = 5 ∧ (0x6 : CmdWord).extractLsb' 0 3 = 6 ∧
      (0x7 : CmdWord).extractLsb' 0 3 = 7 := by decide

/-- Two spellings of CRC.BYTE 0xFF that differ in an ignored field, and two of FRM.ENCODE. -/
theorem witness_IgnoredFieldsChangeNothing :
    ((⟨2, 0xFF, 0, 0, 0, 0, 0⟩ : CmdPorts).op = (⟨2, 0xFF, 1, 2, 3, 4, 5⟩ : CmdPorts).op ∧
      (⟨2, 0xFF, 0, 0, 0, 0, 0⟩ : CmdPorts).din = (⟨2, 0xFF, 1, 2, 3, 4, 5⟩ : CmdPorts).din) ∧
      ((⟨3, 0, 1, 2, 3, 4, 5⟩ : CmdPorts).op = (⟨3, 9, 1, 2, 3, 4, 5⟩ : CmdPorts).op ∧
        (⟨3, 0, 1, 2, 3, 4, 5⟩ : CmdPorts).ts = (⟨3, 9, 1, 2, 3, 4, 5⟩ : CmdPorts).ts) ∧
      Instr.nop.ports.op ≠ 2 ∧ Instr.nop.ports.op ≠ 3 := by decide

theorem witness_CrcShiftTestsTheLowBit :
    (0xFFFF : Half).getLsbD 0 = true ∧ (0xFFFE : Half).getLsbD 0 = false := by decide

theorem witness_CrcInitSetsAcc :
    exec .crcInit pending = .next (pending.setAcc 0xFFFF) ∧ fromLe (pending.frameBytes 21 2) ≠ 0xFFFF :=
  ⟨rfl, by decide +kernel⟩

/-- Idle and pending states, at both ends of the index: used by the statements on FRM.ENCODE and FRM.NEXT. -/
theorem witness_idle_and_pending :
    State.reset.idx.val = 23 ∧ pending.idx.val = 0 ∧ pending.idx.val < 23 ∧
      (stateOf (runTrace (List.replicate 22 .frmNext) pending)).idx.val = 22 ∧
      (stateOf (runTrace (List.replicate 23 .frmNext) pending)).idx.val = 23 := by decide +kernel

theorem witness_ReservedCodesAreRefused :
    5 ≤ ((0x5 : CmdWord).extractLsb' 0 3).toNat ∧ 5 ≤ ((0x7FFFFFFFFFFFFFFFFFFFFFFFFFF : CmdWord).extractLsb' 0 3).toNat := by
  decide

theorem witness_CrcTraceComputesCrc16 :
    ∀ i ∈ [Instr.nop, .crcByte 0x31, .frmNext, .crcByte 0x32], isMessagePart i = true := by decide

/-- A trace that sends a whole frame with other commands among the FRM.NEXT. -/
theorem witness_SendAppendsThePacket :
    State.reset.idx.val = 23 ∧
      (∀ i ∈ List.replicate 22 Instr.frmNext ++ [.nop, .crcInit, .crcByte 1, .frmNext], isSendPart i = true) ∧
      nextCount (List.replicate 22 Instr.frmNext ++ [.nop, .crcInit, .crcByte 1, .frmNext]) = 23 := by decide

theorem witness_OutputsWhileAFrameIsSent :
    (∀ i ∈ List.replicate 22 Instr.frmNext, isSendPart i = true) ∧ nextCount ([] : List Instr) < 23 ∧
      nextCount (List.replicate 22 Instr.frmNext) = 22 ∧ nextCount (List.replicate 23 Instr.frmNext) = 23 := by decide

/-- Every location of the pending frame holds a byte. -/
theorem witness_DrainEmitsTheRest :
    ∀ a : Nat, sent9.idx.val ≤ a → a < 23 → (Memory.lookup sent9.fb a).isSome = true := by
  intro a _ h
  exact (by decide +kernel : ∀ a, a < 23 → (Memory.lookup sent9.fb a).isSome = true) a h

/-- The port values of a command step, of a reset step, and of no step at all. -/
theorem witness_steps :
    ((pending.present ⟨false, Instr.frmNext.ports⟩).inputs = ⟨false, Instr.frmNext.ports⟩ :: [] ∧
      (pending.present ⟨false, Instr.frmNext.ports⟩).inputs ≠ []) ∧
      (pending.present ⟨true, Instr.reserved5.ports⟩).inputs = ⟨true, Instr.reserved5.ports⟩ :: [] ∧
      pending.inputs = [] ∧ decodeTableWord 112 2 = some (.crcByte 0) := by decide +kernel

/-- A step that emits, one that resets, and one that encodes, each with a next state: the hypotheses of the statements
on steps. -/
theorem witness_next_steps :
    step (State.reset.present ⟨true, Instr.nop.ports⟩) = .next State.reset ∧
      step (State.reset.present ⟨false, Instr.nop.ports⟩) = .next State.reset ∧
      completes (step (pending.present ⟨false, Instr.frmNext.ports⟩)) = true ∧
      completes (step (State.reset.present ⟨false, (Instr.frmEncode 0 0 0 0 0).ports⟩)) = true ∧
      decode (Instr.frmNext.ports).bundle = .frmNext ∧
      decode ((Instr.frmEncode 0 0 0 0 0).ports).bundle = .frmEncode 0 0 0 0 0 := by
  refine ⟨rfl, rfl, by decide +kernel, by decide +kernel, by decide, by decide⟩

/-- A step that is refused, for the statement on what `ACC` reaches. -/
theorem witness_refused_step :
    refusalOf (step (pending.present ⟨false, Instr.reserved5.ports⟩)) = some (.reservedOp 5) := by decide +kernel

theorem witness_ResetLeavesAFragment : State.reset.idx.val = 23 ∧ (9 : Nat) < 23 ∧ (22 : Nat) < 23 ∧ (0 : Nat) < 23 := by
  decide

theorem witness_RefusalsAreExactlyTheListed :
    accepts (.frmEncode 0 0 0 0 0) State.reset = true ∧ accepts (.frmEncode 0 0 0 0 0) pending = false ∧
      refusalOf (stepWith ⟨256, 0⟩ State.reset) = some .badConfig := by decide +kernel

theorem witness_CommandsWriteOnlyTheirState :
    exec .nop pending = .next pending ∧ (∀ (ts : Word) (x y z ang : Half), Instr.nop ≠ .frmEncode ts x y z ang) :=
  ⟨rfl, fun _ _ _ _ _ h => by cases h⟩

theorem witness_FrameIsImmutableOnceBuilt :
    completes (runTrace [.crcInit, .frmNext, .nop] pending) = true ∧
      ∀ i ∈ [Instr.crcInit, .frmNext, .nop], ∀ (ts : Word) (x y z ang : Half), i ≠ .frmEncode ts x y z ang := by
  refine ⟨by decide +kernel, ?_⟩
  intro i hi ts x y z ang h
  subst h
  simp at hi

theorem witness_AccumulatorIsShared :
    ∀ i ∈ [Instr.crcByte 1, .crcInit], i = .crcInit ∨ ∃ b : Byte, i = .crcByte b := by simp

/-- The pending frame meets the invariant of R26 with a frame pending, so the invariant's hypothesis is no empty one. -/
theorem witness_StepKeepsTheFrameWhole :
    sent9.idx.val < 23 ∧ FrameHolds Config.hardware sent9 ∧ FrameInv Config.hardware sent9 := by
  have h : FrameHolds Config.hardware sent9 := by
    refine ⟨by decide +kernel, by decide +kernel, by decide +kernel, by decide +kernel, by decide +kernel, by decide +kernel,
      by decide +kernel⟩
  exact ⟨by decide +kernel, h, fun _ => h⟩

theorem witness_StepKeepsTheSentBytes : SentInv sent9 := fun _ => ⟨[], by decide +kernel⟩

theorem witness_EveryConfigurationKeepsTheFrameWhole :
    completes (stepWith ⟨0x0B, 0x01⟩ (State.reset.present ⟨false, (Instr.frmEncode 0 200 0 1500 0).ports⟩)) = true ∧
      FrameInv ⟨0x0B, 0x01⟩ State.reset := ⟨by decide +kernel, fun h => absurd h (by decide)⟩

theorem witness_StepKeepsTheMemoryCanonical : Memory.wf pending.fb = true ∧ Memory.wf [(1, 0), (1, 0)] = false ∧
    Memory.wf [(23, 0)] = false := by decide +kernel

/-- The ends of the ranges of R7, for N = 16. -/
theorem witness_TruncIsTheResidue :
    ((0 : Int) ≤ 65535 ∧ (65535 : Int) < 2 ^ 16) ∧ (-(2 ^ (16 - 1)) ≤ (-32768 : Int) ∧ (-32768 : Int) < 2 ^ (16 - 1)) ∧
      (32767 : Int) < 2 ^ (16 - 1) := by decide

/-- The ends of the ranges of the field statements: coordinates, angle, constants. -/
theorem witness_field_ranges :
    ((-32768 : Int) ≤ 32767 ∧ (0 : Int) ≤ 4095 ∧ (4095 : Int) < 4096 ∧ (0 : Int) ≤ 255 ∧ (255 : Int) ≤ 255) ∧
      (fAngle 4095)[1]? = some 0x0F := by decide +kernel

theorem witness_PacketProperties :
    Config.hardware.wellFormed = true ∧ (-32768 : Int) ≤ -32768 ∧ (32767 : Int) ≤ 32767 ∧
      (0 : Int) ≤ 4294967295 ∧ (4294967295 : Int) < 2 ^ 32 := by decide

/-- A write at the very top of `FB`, and accesses just outside the domain. -/
theorem witness_MemWriteThenMemRead :
    ((4 = 1 ∨ 4 = 2 ∨ 4 = 4) ∧ 19 + 4 ≤ 23) ∧ ¬((4 = 1 ∨ 4 = 2 ∨ 4 = 4) ∧ 20 + 4 ≤ 23) ∧
      ¬((3 = 1 ∨ 3 = 2 ∨ 3 = 4) ∧ 0 + 3 ≤ 23) := by decide

theorem witness_AssemblerTruncatesSamplesAndRejectsBytes :
    ((0 : Int) ≤ 0 ∧ (255 : Int) ≤ 255) ∧ ((-1 : Int) < 0 ∨ 255 < (-1 : Int)) ∧ ((256 : Int) < 0 ∨ 255 < (256 : Int)) := by
  decide

/-- A step from the pending state, with both of its invariants met together. -/
theorem witness_step_from_pending_frame :
    FrameInv Config.hardware (sent9.present ⟨false, Instr.frmNext.ports⟩) ∧
      SentInv (sent9.present ⟨false, Instr.frmNext.ports⟩) ∧
      completes (step (sent9.present ⟨false, Instr.frmNext.ports⟩)) = true := by
  have h : FrameHolds Config.hardware (sent9.present ⟨false, Instr.frmNext.ports⟩) := by
    refine ⟨by decide +kernel, by decide +kernel, by decide +kernel, by decide +kernel, by decide +kernel, by decide +kernel,
      by decide +kernel⟩
  exact ⟨fun _ => h, fun _ => ⟨[], by decide +kernel⟩, by decide +kernel⟩

end Sys2Proof.Tests
end

/-! The configuration of a block and the running of driven commands (00_scope.md R4, R6, R7). -/

namespace Sys2Proof.Machine

/-! `trunc_N` and `as_signed_N` (00_scope.md R7). -/

theorem trunc_toNat_eq_emod (n : Nat) (v : Int) : ((trunc n v).toNat : Int) = v % 2 ^ n := by
  rw [trunc, BitVec.toNat_ofInt, Int.toNat_of_nonneg (Int.emod_nonneg _ (by positivity))]
  norm_cast

theorem toNat_emod_two_pow (n : Nat) (r : BitVec n) : (r.toNat : Int) % 2 ^ n = r.toNat := by
  exact_mod_cast Nat.mod_eq_of_lt r.isLt

theorem eq_trunc_iff_emod_eq (n : Nat) (v : Int) (r : BitVec n) :
    r = trunc n v ↔ (r.toNat : Int) % 2 ^ n = v % 2 ^ n := by
  rw [toNat_emod_two_pow, ← trunc_toNat_eq_emod, Nat.cast_inj, BitVec.toNat_inj]

theorem trunc_toNat_of_unsigned (n : Nat) (v : Int) (h0 : 0 ≤ v) (h : v < 2 ^ n) : ((trunc n v).toNat : Int) = v := by
  rw [trunc_toNat_eq_emod, Int.emod_eq_of_lt h0 h]

/-- `as_signed_N` is the two's complement reading of an `N`-bit value. -/
theorem asSigned_toNat (n : Nat) (hn : 0 < n) (r : BitVec n) : asSigned n r.toNat = r.toInt := by
  have half : r.toNat < 2 ^ (n - 1) ↔ 2 * r.toNat < 2 ^ n := by
    rw [← Nat.two_pow_pred_mul_two hn]
    omega
  rw [BitVec.toInt_eq_toNat_cond, asSigned]
  simp only [half, Nat.cast_pow, Nat.cast_ofNat]

/-- Settles O47: `trunc_N` is the residue as a number, and `as_signed_N` is two's complement. -/
theorem truncIsTheResidue : Obligations.TruncIsTheResidue := by
  refine ⟨eq_trunc_iff_emod_eq, trunc_toNat_of_unsigned, fun n v hn hlo hhi => ?_⟩
  rw [asSigned_toNat n hn, trunc, BitVec.toInt_ofInt_eq_self hn hlo hhi]

/-! The meanings and the step in a configuration (00_scope.md R4). -/

theorem execWith_hardware (i : Instr) (s : State) : execWith Config.hardware i s = exec i s := by
  cases i <;> rfl

/-- Settles O34: the meanings of the hardware configuration are those of `exec`, and its check passes. -/
theorem stepIsTheHardwareConfigurationsStep : Obligations.StepIsTheHardwareConfigurationsStep := by
  have meanings : execWith Config.hardware = exec := funext₂ execWith_hardware
  have legal : Config.hardware.wellFormed = true := by decide
  refine ⟨rfl, rfl, legal, fun s => ?_⟩
  rw [step, stepWith, if_pos legal, meanings]

/-- `FRM.ENCODE` with no frame pending leaves its configuration's packet in `FB` and the packet's CRC in `ACC`
(41_framer.md R110). -/
theorem execWith_frmEncode_builds_packet (c : Config) (ts : Word) (x y z ang : Half) (s : State)
    (h : s.idx.val = 23) :
    ∃ t : State, execWith c (.frmEncode ts x y z ang) s = .next t ∧
      t.frameBytes 0 23 = encodePorts c ts x y z ang ∧ t.acc = crc16 (t.frameBytes 0 21) ∧ t.idx.val = 0 ∧
      t.sink = s.sink := by
  obtain ⟨t, he, hacc, hfb, hidx, hsink, -⟩ := frmEncodeWith_next c ts x y z ang s h
  obtain ⟨hpacket, hbody, -⟩ := frameBytes_packet c _ _ _ _ _ s.fb t hfb
  exact ⟨t, he, hpacket, by rw [hacc, hbody], by rw [hidx]; rfl, hsink⟩

/-- Settles O17: the stores of `FRM.ENCODE` read back as the packet; the sample of section 3.2 is evaluated. -/
theorem encodeFollowsTheConfiguration : Obligations.EncodeFollowsTheConfiguration :=
  ⟨execWith_frmEncode_builds_packet, execWith_hardware, by decide +kernel⟩

/-! Driven commands (00_scope.md R6). -/

/-- No command reads or writes the ports to come: whatever they are, it completes alike or is refused alike. -/
theorem exec_setInputs_cases (i : Instr) (s : State) :
    (∃ u : State, ∀ ps, exec i (s.setInputs ps) = .next (u.setInputs ps)) ∨
      (∃ r : Refusal, ∀ ps, exec i (s.setInputs ps) = .refused r) := by
  cases i with
  | nop => exact .inl ⟨s, fun _ => rfl⟩
  | crcInit => exact .inl ⟨s.setAcc crcInit, fun _ => rfl⟩
  | crcByte b => exact .inl ⟨s.setAcc (crcByte s.acc b), fun _ => rfl⟩
  | frmEncode ts x y z ang =>
    by_cases h : s.idx.val = 23
    · refine .inl ⟨((s.setAcc (crc16 (body Config.hardware ts.toNat x.toNat y.toNat z.toNat ang.toNat))).setFb
        (Memory.putBytes s.fb 0 (encodePorts Config.hardware ts x y z ang))).setIdx 0,
        fun ps => ?_⟩
      rw [exec_frmEncode_idle ts x y z ang (s.setInputs ps) h]
      simp only [State.setInputs, State.setAcc, State.setFb, State.setIdx]
    · exact .inr ⟨_, fun ps => exec_frmEncode_busy ts x y z ang (s.setInputs ps) h⟩
  | frmNext =>
    by_cases h : s.idx.val < 23
    · exact .inl ⟨(s.emit (s.frameByte s.idx.val)).setIdx ⟨s.idx.val + 1, Nat.succ_lt_succ h⟩,
        fun ps => exec_frmNext_pending (s.setInputs ps) h⟩
    · exact .inl ⟨s, fun ps => exec_frmNext_idle (s.setInputs ps) (by rw [State.setInputs_idx]; omega)⟩
  | reserved5 => exact .inr ⟨.reservedOp 5, fun _ => rfl⟩
  | reserved6 => exact .inr ⟨.reservedOp 6, fun _ => rfl⟩
  | reserved7 => exact .inr ⟨.reservedOp 7, fun _ => rfl⟩

theorem decode_ports (i : Instr) : i.ports.decode = i := by
  cases i <;> rfl

/-- A driven command runs on the state whose ports to come have moved on by one. -/
theorem step_driveCommand (i : Instr) (rest : List PortsIn) (s : State) :
    step (s.setInputs (driveCommand i :: rest)) = exec i (s.setInputs rest) := by
  have : decode i.ports.bundle = i := by rw [decode_bundle, decode_ports]
  simp [step, cycle, driveCommand, this, State.setInputs]

theorem core_run_succ_of_next (k : Nat) (s u : State) (h : step s = .next u) :
    Host.Core.run Sys2Proof.core (k + 1) s = Host.Core.run Sys2Proof.core k u := by
  have hcore : Host.Core.step Sys2Proof.core s = .next u := h
  simp only [Host.Core.run, hcore]

theorem core_run_succ_of_refused (k : Nat) (s : State) (r : Refusal) (h : step s = .refused r) :
    Host.Core.run Sys2Proof.core (k + 1) s = .refused r := by
  have hcore : Host.Core.step Sys2Proof.core s = .refused r := h
  simp only [Host.Core.run, hcore]

/-- Settles O25, by induction on the trace: a step runs the command, and the command leaves the ports to come alone. -/
theorem drivenCommandsRunTheTrace : Obligations.DrivenCommandsRunTheTrace := by
  intro t rest s
  induction t generalizing s with
  | nil => rfl
  | cons i t ih =>
    have hstep := step_driveCommand i (t.map driveCommand ++ rest) s
    rcases exec_setInputs_cases i s with ⟨u, hu⟩ | ⟨r, hr⟩
    · rw [runTrace, hu rest]
      rw [hu] at hstep
      exact (core_run_succ_of_next t.length _ _ hstep).trans (ih u)
    · rw [runTrace, hr rest]
      rw [hr] at hstep
      exact core_run_succ_of_refused t.length _ _ hstep

end Sys2Proof.Machine

/-! The state at a step (10_state.md): what a completing command does, what it leaves alone, and the invariants every
step keeps. -/

namespace Sys2Proof.Machine

/-! What a completing command, and a completing step, can do. -/

/-- `CommandEffect c s i t`: command `i` completes on `s` in configuration `c` and leaves `t` (30_encoding.md R60). The
reserved codes have no case, they never complete. -/
inductive CommandEffect (c : Config) (s : State) : Instr → State → Prop where
  | nop : CommandEffect c s .nop s
  | crcInit : CommandEffect c s .crcInit { s with acc := crcInit }
  | crcByte (b : Byte) : CommandEffect c s (.crcByte b) { s with acc := crcByte s.acc b }
  | frmEncode (ts : Word) (x y z ang : Half) (idle : s.idx.val = 23) :
      CommandEffect c s (.frmEncode ts x y z ang)
        { s with
          acc := crc16 (body c ts.toNat x.toNat y.toNat z.toNat ang.toNat)
          fb := Memory.putBytes s.fb 0 (encodePorts c ts x y z ang)
          idx := 0 }
  | frmNext (pending : s.idx.val < 23) :
      CommandEffect c s .frmNext
        { s with
          sink := s.sink ++ [s.frameByte s.idx.val]
          idx := ⟨s.idx.val + 1, Nat.succ_lt_succ pending⟩ }
  | frmNextIdle (idle : s.idx.val = 23) : CommandEffect c s .frmNext s

section
variable {c : Config} {i : Instr} {s t : State}

theorem eq_of_next_of_next {o : Host.Outcome State Fault Refusal} (e : o = .next s) (h : o = .next t) : t = s :=
  Host.Outcome.next.inj (h.symm.trans e)

theorem commandEffect_of_execWith (h : execWith c i s = .next t) : CommandEffect c s i t := by
  cases i with
  | nop => exact eq_of_next_of_next (exec_nop s) h ▸ .nop
  | crcInit => exact eq_of_next_of_next (exec_crcInit s) h ▸ .crcInit
  | crcByte b => exact eq_of_next_of_next (exec_crcByte b s) h ▸ .crcByte b
  | frmEncode ts x y z ang =>
    rw [execWith] at h
    rcases frmEncodeWith_cases c ts x y z ang s with ⟨idle, e⟩ | ⟨-, e⟩
    · exact eq_of_next_of_next e h ▸ .frmEncode ts x y z ang idle
    · cases e.symm.trans h
  | frmNext =>
    rcases execFrmNext_cases s with ⟨pending, e⟩ | ⟨idle, e⟩
    · exact eq_of_next_of_next e h ▸ .frmNext pending
    · exact (eq_of_next_of_next e h).symm ▸ .frmNextIdle idle
  | reserved5 => cases h
  | reserved6 => cases h
  | reserved7 => cases h

theorem commandEffect_of_exec (h : exec i s = .next t) : CommandEffect Config.hardware s i t :=
  commandEffect_of_execWith ((execWith_hardware i s).trans h)

theorem stepWith_of_step (h : step s = .next t) : stepWith Config.hardware s = .next t := by
  obtain ⟨-, -, -, same⟩ := stepIsTheHardwareConfigurationsStep
  rw [← same s, h]

/-- Everything a completing step can do. -/
theorem stepWith_next_cases (h : stepWith c s = .next t) :
    (s.inputs = [] ∧ t = s) ∨
      (∃ p rest, s.inputs = p :: rest ∧ p.rst = true ∧ t = resetStep (s.setInputs rest)) ∨
      (∃ p rest, s.inputs = p :: rest ∧ p.rst = false ∧
        CommandEffect c (s.setInputs rest) (decode p.cmd.bundle) t) := by
  rw [stepWith] at h
  split at h
  · rcases cycle_cases (execWith c) s with ⟨hin, e⟩ | ⟨p, rest, hin, hrst, e⟩ | ⟨p, rest, hin, hrst, e⟩
    · exact .inl ⟨hin, eq_of_next_of_next e h⟩
    · exact .inr (.inl ⟨p, rest, hin, hrst, eq_of_next_of_next e h⟩)
    · rw [← decode_bundle] at e
      exact .inr (.inr ⟨p, rest, hin, hrst, commandEffect_of_execWith (e.symm.trans h)⟩)
  · cases h

/-! What a command leaves unchanged (R14). -/

theorem CommandEffect.inputs_eq (h : CommandEffect c s i t) : t.inputs = s.inputs := by
  cases h <;> rfl

theorem CommandEffect.sink_eq (h : CommandEffect c s i t) (notNext : i ≠ .frmNext) : t.sink = s.sink := by
  cases h with
  | frmNext => exact absurd rfl notNext
  | _ => rfl

theorem CommandEffect.fb_eq (h : CommandEffect c s i t)
    (notEncode : ∀ (ts : Word) (x y z ang : Half), i ≠ .frmEncode ts x y z ang) : t.fb = s.fb := by
  cases h with
  | frmEncode ts x y z ang => exact absurd rfl (notEncode ts x y z ang)
  | _ => rfl

theorem CommandEffect.idx_eq (h : CommandEffect c s i t)
    (notEncode : ∀ (ts : Word) (x y z ang : Half), i ≠ .frmEncode ts x y z ang) (notNext : i ≠ .frmNext) :
    t.idx = s.idx := by
  cases h with
  | frmEncode ts x y z ang => exact absurd rfl (notEncode ts x y z ang)
  | frmNext => exact absurd rfl notNext
  | _ => rfl

theorem CommandEffect.acc_eq (h : CommandEffect c s i t)
    (notEncode : ∀ (ts : Word) (x y z ang : Half), i ≠ .frmEncode ts x y z ang) (notInit : i ≠ .crcInit)
    (notByte : ∀ b : Byte, i ≠ .crcByte b) : t.acc = s.acc := by
  cases h with
  | frmEncode ts x y z ang => exact absurd rfl (notEncode ts x y z ang)
  | crcInit => exact absurd rfl notInit
  | crcByte b => exact absurd rfl (notByte b)
  | _ => rfl

/-! How `IDX` moves (R12). -/

theorem CommandEffect.idx_of_frmNext (h : CommandEffect c s .frmNext t) : t.idx.val = min (s.idx.val + 1) 23 := by
  cases h with
  | frmNext pending => exact (Nat.min_eq_left pending).symm
  | frmNextIdle idle => omega

theorem CommandEffect.idx_of_frmEncode {ts : Word} {x y z ang : Half}
    (h : CommandEffect c s (.frmEncode ts x y z ang) t) : s.idx.val = 23 ∧ t.idx.val = 0 := by
  cases h with
  | frmEncode _ _ _ _ _ idle => exact ⟨idle, rfl⟩

end

/-! The whole frame (R26) through a command and a step. -/

theorem angle_high_byte_upper_bits (v : Half) :
    (BitVec.ofNat 8 ((v &&& angleMask).toNat >>> 8)).extractLsb' 4 4 = 0 := by
  have small : (v &&& angleMask).toNat ≤ 0x0FFF := Nat.and_le_right
  apply BitVec.eq_of_toNat_eq
  simp only [BitVec.extractLsb'_toNat, BitVec.ofNat_eq_ofNat, BitVec.toNat_ofNat, Nat.shiftRight_eq_div_pow]
  omega

theorem lookup_packet (c : Config) (ts x y z ang : Int) (m : Memory) (a : Nat) (ha : a < 23) :
    Memory.lookup (Memory.putBytes m 0 (encodePacket c ts x y z ang)) a = (encodePacket c ts x y z ang)[a]? := by
  rw [Memory.lookup_putBytes, if_pos ⟨a.zero_le, by rwa [encodePacket_length, Nat.zero_add]⟩, Nat.sub_zero]

/-- An `FB` that a packet was written into holds a whole frame. -/
theorem frameHolds_of_packet (c : Config) (ts x y z ang : Int) (m : Memory) (t : State)
    (h : t.fb = Memory.putBytes m 0 (encodePacket c ts x y z ang)) : FrameHolds c t := by
  obtain ⟨-, hbody, htrailer⟩ := frameBytes_packet c ts x y z ang m t h
  have shown : ∀ a b, a < 23 → (encodePacket c ts x y z ang)[a]? = some b → t.frameByte a = b :=
    fun a b ha hb => State.frameByte_of_lookup t a b (by rw [h, lookup_packet _ _ _ _ _ _ m a ha, hb])
  have parts : t.frameBytes 0 5 ++ t.frameBytes 5 16 = header ++ payload c ts x y z ang := by
    rw [← State.frameBytes_add t 0 5 16, hbody, body]
  exact {
    written := fun a ha => by
      rw [h, lookup_packet _ _ _ _ _ _ m a ha, List.getElem?_eq_getElem (by rwa [encodePacket_length])]
      rfl
    header := List.append_inj_left parts (State.frameBytes_length t 0 5)
    flags := shown 15 _ (by decide) rfl
    address := shown 16 _ (by decide) rfl
    angle := by rw [shown 18 _ (by decide) rfl, angle_high_byte_upper_bits]
    reserved := ⟨shown 19 _ (by decide) rfl, shown 20 _ (by decide) rfl⟩
    crc := by rw [htrailer, hbody, fromLe_trailer] }

section
variable {c : Config} {i : Instr} {s t : State}

/-- A written location shows its byte, so no free value. -/
theorem FrameHolds.lookup_eq (h : FrameHolds c s) {a : Nat} (ha : a < 23) :
    Memory.lookup s.fb a = some (s.frameByte a) := by
  obtain ⟨b, hb⟩ := Option.isSome_iff_exists.1 (h.written a ha)
  rw [hb, State.frameByte_of_lookup s a b hb]

/-- A whole frame reads alike in every state with the same `FB`. -/
theorem FrameHolds.frameByte_eq (h : FrameHolds c s) (hfb : t.fb = s.fb) {a : Nat} (ha : a < 23) :
    t.frameByte a = s.frameByte a :=
  State.frameByte_of_lookup t a _ (by rw [hfb, h.lookup_eq ha])

theorem FrameHolds.frameBytes_eq (h : FrameHolds c s) (hfb : t.fb = s.fb) {a n : Nat} (ha : a + n ≤ 23) :
    t.frameBytes a n = s.frameBytes a n := by
  induction n generalizing a with
  | zero => rfl
  | succ n ih => rw [State.frameBytes, State.frameBytes, h.frameByte_eq hfb (by omega), ih (by omega)]

theorem FrameHolds.of_fb_eq (h : FrameHolds c s) (hfb : t.fb = s.fb) : FrameHolds c t where
  written := by rw [hfb]; exact h.written
  header := by rw [h.frameBytes_eq hfb (by decide), h.header]
  flags := by rw [h.frameByte_eq hfb (by decide), h.flags]
  address := by rw [h.frameByte_eq hfb (by decide), h.address]
  angle := by rw [h.frameByte_eq hfb (by decide), h.angle]
  reserved := by rw [h.frameByte_eq hfb (by decide), h.frameByte_eq hfb (by decide)]; exact h.reserved
  crc := by rw [h.frameBytes_eq hfb (by decide), h.frameBytes_eq hfb (by decide), h.crc]

theorem frameInv_of_idle (idle : s.idx.val = 23) : FrameInv c s :=
  fun pending => absurd idle (Nat.ne_of_lt pending)

theorem FrameInv.of_fb_eq (h : FrameInv c s) (hfb : t.fb = s.fb) (hidx : t.idx.val < 23 → s.idx.val < 23) :
    FrameInv c t :=
  fun pending => (h (hidx pending)).of_fb_eq hfb

theorem FrameInv.setInputs (h : FrameInv c s) (ps : List PortsIn) : FrameInv c (s.setInputs ps) :=
  h.of_fb_eq rfl id

theorem CommandEffect.frameInv (h : CommandEffect c s i t) (hs : FrameInv c s) : FrameInv c t := by
  cases h with
  | nop => exact hs
  | crcInit => exact hs.of_fb_eq rfl id
  | crcByte b => exact hs.of_fb_eq rfl id
  | frmEncode ts x y z ang =>
    exact fun _ => frameHolds_of_packet c ts.toNat x.toNat y.toNat z.toNat ang.toNat s.fb _ (by rw [encodePorts])
  | frmNext pending => exact hs.of_fb_eq rfl fun _ => pending
  | frmNextIdle => exact hs

end

/-- Settles O43: a command keeps `FB` or writes a whole packet into it, and a reset step leaves no frame pending. -/
theorem everyConfigurationKeepsTheFrameWhole : Obligations.EveryConfigurationKeepsTheFrameWhole := by
  intro c s t hs h
  rcases stepWith_next_cases h with ⟨-, rfl⟩ | ⟨_, rest, -, -, rfl⟩ | ⟨_, rest, -, -, he⟩
  · exact hs
  · exact frameInv_of_idle rfl
  · exact he.frameInv (hs.setInputs rest)

/-- Settles O42: the step is the hardware configuration's. -/
theorem stepKeepsTheFrameWhole : Obligations.StepKeepsTheFrameWhole :=
  fun s t hs h => everyConfigurationKeepsTheFrameWhole _ s t hs (stepWith_of_step h)

theorem State.dout_of_pending (s : State) (read : Nat) (pending : s.idx.val < 23) :
    s.dout read = s.frameByte s.idx.val :=
  if_pos pending

/-- Settles O56: a whole frame has every location written. -/
theorem pendingFrameShowsItsBytes : Obligations.PendingFrameShowsItsBytes := by
  intro c s read hs pending
  rw [s.dout_of_pending read pending]
  exact (hs pending).lookup_eq pending

/-! The bytes of the pending frame that are sent (R12, R20). -/

section
variable {c : Config} {i : Instr} {s t : State}

theorem sentInv_of_idle (idle : s.idx.val = 23) : SentInv s :=
  fun pending => absurd idle (Nat.ne_of_lt pending)

/-- The sent bytes stand while the frame is whole and neither it nor `IDX` nor `SINK` changes. -/
theorem SentInv.of_eq (h : SentInv s) (hs : FrameInv c s) (hfb : t.fb = s.fb) (hidx : t.idx = s.idx)
    (hsink : t.sink = s.sink) : SentInv t := by
  rw [SentInv, hidx, hsink]
  intro pending
  rw [(hs pending).frameBytes_eq hfb (by omega)]
  exact h pending

theorem SentInv.of_next_byte_sent (h : SentInv s) (hs : FrameInv c s) (pending : s.idx.val < 23) (hfb : t.fb = s.fb)
    (hidx : t.idx.val = s.idx.val + 1) (hsink : t.sink = s.sink ++ [s.frameByte s.idx.val]) : SentInv t := by
  obtain ⟨earlier, hearlier⟩ := h pending
  have sentBytes : t.frameBytes 0 t.idx.val = s.frameBytes 0 s.idx.val ++ [s.frameByte s.idx.val] := by
    rw [hidx, (hs pending).frameBytes_eq hfb (by omega), State.frameBytes_add, Nat.zero_add]
    rfl
  exact fun _ => ⟨earlier, by rw [hsink, hearlier, sentBytes, List.append_assoc]⟩

theorem CommandEffect.sentInv (h : CommandEffect c s i t) (hs : FrameInv c s) (sent : SentInv s) : SentInv t := by
  cases h with
  | nop => exact sent
  | crcInit => exact sent.of_eq hs rfl rfl rfl
  | crcByte b => exact sent.of_eq hs rfl rfl rfl
  | frmEncode ts x y z ang => exact fun _ => ⟨s.sink, (List.append_nil _).symm⟩
  | frmNext pending => exact sent.of_next_byte_sent hs pending rfl rfl rfl
  | frmNextIdle => exact sent

end

/-- Settles O45: `FRM.NEXT` moves `FB[IDX]` to the end of `SINK` as `IDX` passes it, and `FRM.ENCODE` starts with no
byte sent. -/
theorem stepKeepsTheSentBytes : Obligations.StepKeepsTheSentBytes := by
  intro s t hs sent h
  rcases stepWith_next_cases (stepWith_of_step h) with ⟨-, rfl⟩ | ⟨_, rest, -, -, rfl⟩ | ⟨_, rest, -, -, he⟩
  · exact sent
  · exact sentInv_of_idle rfl
  · exact he.sentInv (hs.setInputs rest) (sent.of_eq hs rfl rfl rfl)

/-! What changes at a step. -/

/-- Settles O36: the frame of each command. -/
theorem commandsWriteOnlyTheirState : Obligations.CommandsWriteOnlyTheirState := by
  intro i s t h
  have he := commandEffect_of_exec h
  refine ⟨he.inputs_eq, he.sink_eq, fun notEncode => ?_⟩
  have hfb := he.fb_eq notEncode
  exact ⟨hfb, fun a => by rw [hfb], he.idx_eq notEncode, he.acc_eq notEncode⟩

/-- Settles O37: of everything a step can do, only `FRM.NEXT` with a frame pending touches `SINK`. -/
theorem sinkIsOnlyAppendedTo : Obligations.SinkIsOnlyAppendedTo := by
  intro s t h
  rcases stepWith_next_cases (stepWith_of_step h) with
    ⟨-, rfl⟩ | ⟨_, _, -, -, rfl⟩ | ⟨p, rest, hin, hrst, he⟩
  · exact .inl rfl
  · exact .inl rfl
  · by_cases hd : decode p.cmd.bundle = .frmNext
    · rw [hd] at he
      cases he with
      | frmNext pending => exact .inr ⟨pending, rfl, p, rest, hin, hrst, hd⟩
      | frmNextIdle => exact .inl rfl
    · exact .inl (he.sink_eq hd)

/-- Settles O38: the reset step and each command's effect on `IDX`. -/
theorem idxMovesAsTheRuleSays : Obligations.IdxMovesAsTheRuleSays := by
  intro s t p rest hin h
  rcases stepWith_next_cases (stepWith_of_step h) with
    ⟨hnil, -⟩ | ⟨_, _, hin', hrst, rfl⟩ | ⟨_, _, hin', hrst, he⟩
  · cases hin.symm.trans hnil
  · cases hin.symm.trans hin'
    simp [hrst]
  · cases hin.symm.trans hin'
    refine ⟨by simp [hrst], fun _ hd => ?_, fun _ ⟨ts, x, y, z, ang, hd⟩ => ?_,
      fun _ notNext notEncode => he.idx_eq notEncode notNext⟩
    · exact (hd ▸ he).idx_of_frmNext
    · exact (hd ▸ he).idx_of_frmEncode

theorem runTrace_cons_next {i : Instr} {t : List Instr} {s u : State} (h : runTrace (i :: t) s = .next u) :
    ∃ v, exec i s = .next v ∧ runTrace t v = .next u := by
  rw [runTrace] at h
  split at h
  · next v hv => exact ⟨v, hv, h⟩
  · cases h
  · cases h

/-- Settles O39, by induction on the trace. -/
theorem frameIsImmutableOnceBuilt : Obligations.FrameIsImmutableOnceBuilt := by
  intro t s u notEncode h
  induction t generalizing s with
  | nil =>
    cases h
    rfl
  | cons i t ih =>
    obtain ⟨notEncode_i, notEncode_t⟩ := List.forall_mem_cons.1 notEncode
    obtain ⟨v, hv, hrest⟩ := runTrace_cons_next h
    rw [ih v notEncode_t hrest, (commandEffect_of_exec hv).fb_eq notEncode_i]

/-! Ports, reset and outputs (R17, R18, R24, R25). -/

theorem step_command {s : State} {p : PortsIn} {rest : List PortsIn} (hin : s.inputs = p :: rest)
    (hrst : p.rst = false) : step s = exec (decode p.cmd.bundle) (s.setInputs rest) := by
  simp only [step, cycle, hin, hrst, Bool.false_eq_true, if_false]

/-- Settles O26: the ports sampled are the front of `inputs`, and a table word's ports carry its bundle. -/
theorem stepRunsTheDecodedCommand : Obligations.StepRunsTheDecodedCommand := by
  refine ⟨fun s p rest hin hrst => step_command hin hrst, fun s nbits w i hd => ?_⟩
  rw [decodeTableWord, Option.some.injEq, ← decode_bundle] at hd
  rw [← hd]
  exact step_command (s := s.withFetchWord nbits w) (p := ⟨false, CmdPorts.ofTableWord nbits w⟩) rfl rfl

/-- Settles O31: the values R24 lists. -/
theorem resetState : Obligations.ResetState :=
  ⟨rfl, rfl, rfl, rfl, rfl, rfl, rfl⟩

/-- Settles O46: no frame is pending after reset, and `FB` is empty. -/
theorem resetMeetsTheInvariants : Obligations.ResetMeetsTheInvariants :=
  ⟨frameInv_of_idle rfl, sentInv_of_idle rfl, reset_wf⟩

theorem State.frmReady_eq_not_dvalid (s : State) : s.frmReady = !s.dvalid := by
  have : s.idx.val = 23 ↔ ¬ s.idx.val < 23 := by omega
  rw [State.frmReady, State.dvalid, ← decide_not, decide_eq_decide, this]

/-- Settles O55: each port by its definition; the emitted byte is the one `dout` shows. -/
theorem outputPorts : Obligations.OutputPorts := by
  refine ⟨fun s read => ⟨rfl, decide_eq_true_iff, decide_eq_true_iff, decide_eq_true_iff, s.frmReady_eq_not_dvalid,
    s.dout_of_pending read⟩, fun s t read pending h => ?_⟩
  rw [exec_frmNext_pending s pending] at h
  cases h
  exact congrArg (s.sink ++ [·]) (s.dout_of_pending read pending).symm

end Sys2Proof.Machine

/-! The frame buffer (20_memory.md): its canonical form at every step, and what `MemRead` finds after `MemWrite`. -/

namespace Sys2Proof.Machine

/-! The canonical form (R30). -/

theorem encodePorts_length (c : Config) (ts : Word) (x y z ang : Half) : (encodePorts c ts x y z ang).length = 23 := by
  rw [encodePorts, encodePacket_length]

/-- Of the commands only `FRM.ENCODE` touches `FB`, and its 23 bytes go to locations of `FB`. -/
theorem CommandEffect.memory_wf {c : Config} {i : Instr} {s t : State} (h : CommandEffect c s i t)
    (hs : Memory.wf s.fb = true) : Memory.wf t.fb = true := by
  cases h with
  | frmEncode ts x y z ang =>
    dsimp only
    exact Memory.wf_putBytes s.fb 0 _ hs (by rw [encodePorts_length])
  | _ => exact hs

theorem stepWith_memory_wf {c : Config} {s t : State} (hs : Memory.wf s.fb = true) (h : stepWith c s = .next t) :
    Memory.wf t.fb = true := by
  rcases stepWith_next_cases h with ⟨-, rfl⟩ | ⟨_, rest, -, -, rfl⟩ | ⟨_, rest, -, -, he⟩
  · exact hs
  · exact resetStep_wf _
  · exact he.memory_wf hs

/-- Settles O44: a reset step empties `FB`, and a command keeps it or writes a packet into it. -/
theorem stepKeepsTheMemoryCanonical : Obligations.StepKeepsTheMemoryCanonical :=
  fun _ _ hs h => stepWith_memory_wf hs (stepWith_of_step h)

/-! `MemWrite` and `MemRead` within and outside their domain (R31, R32). -/

section
variable (s : State) (a n : Nat) (v : BitVec (8 * n))

theorem memWrite_of_accessOk (ok : accessOk a n = true) :
    memWrite s a n v = .ok (s.setFb (Memory.putBytes s.fb a (leBytes n v.toNat))) :=
  if_pos ok

theorem memRead_of_accessOk (ok : accessOk a n = true) :
    memRead s a n = .ok (BitVec.ofNat (8 * n) (fromLe (s.frameBytes a n))) :=
  if_pos ok

theorem memWrite_of_not_accessOk (bad : ¬accessOk a n = true) : memWrite s a n v = .error (.frameAddress a n) :=
  if_neg bad

theorem memRead_of_not_accessOk (bad : ¬accessOk a n = true) : memRead s a n = .error (.frameAddress a n) :=
  if_neg bad

theorem ofNat_fromLe_leBytes_toNat : BitVec.ofNat (8 * n) (fromLe (leBytes n v.toNat)) = v := by
  rw [fromLe_leBytes, Nat.mod_eq_of_lt v.isLt, BitVec.ofNat_toNat, BitVec.setWidth_eq]

theorem frameBytes_putBytes_leBytes (w : Nat) :
    (s.setFb (Memory.putBytes s.fb a (leBytes n w))).frameBytes a n = leBytes n w := by
  have h := frameBytes_putBytes s (leBytes n w) a
  rwa [leBytes_length] at h

theorem memRead_putBytes_leBytes (ok : accessOk a n = true) :
    memRead (s.setFb (Memory.putBytes s.fb a (leBytes n v.toNat))) a n = .ok v := by
  rw [memRead_of_accessOk _ a n ok, frameBytes_putBytes_leBytes, ofNat_fromLe_leBytes_toNat]

/-- Byte `j` of a value stands `j` locations above the lowest one: little-endian (R33). -/
theorem lookup_putBytes_leBytes_inside (m : Memory) (j : Nat) (hj : j < n) :
    Memory.lookup (Memory.putBytes m a (leBytes n v.toNat)) (a + j) = some (v.extractLsb' (8 * j) 8) := by
  rw [Memory.lookup_putBytes, leBytes_length, if_pos (by omega), Nat.add_sub_cancel_left, leBytes_getElem? n _ j hj]
  rfl

theorem lookup_putBytes_leBytes_outside (m : Memory) (w k : Nat) (hk : k < a ∨ a + n ≤ k) :
    Memory.lookup (Memory.putBytes m a (leBytes n w)) k = Memory.lookup m k := by
  rw [Memory.lookup_putBytes, leBytes_length, if_neg (by omega)]

end

/-- Settles O54: within the domain the bytes written are those of the value and read back as it; outside it the check
both operations share fails. -/
theorem memWriteThenMemRead : Obligations.MemWriteThenMemRead := by
  refine ⟨fun s a n v width inside => ?_, fun s a n v outside => ?_⟩
  · have ok : accessOk a n = true := (accessOk_iff a n).2 ⟨width, inside⟩
    exact ⟨_, memWrite_of_accessOk s a n v ok, memRead_putBytes_leBytes s a n v ok,
      lookup_putBytes_leBytes_inside a n v s.fb, lookup_putBytes_leBytes_outside a n s.fb v.toNat,
      rfl, rfl, rfl, rfl⟩
  · have bad : ¬accessOk a n = true := outside ∘ (accessOk_iff a n).1
    exact ⟨memWrite_of_not_accessOk s a n v bad, memRead_of_not_accessOk s a n bad⟩

end Sys2Proof.Machine

/-! The encoding of commands (30_encoding.md): bundles, traces and their text, and the packet's layout (R50). -/

namespace Sys2Proof

/-! The bundle as a number and as its ports (R58). -/

theorem toNat_append_eq_add {m n : Nat} (hi : BitVec m) (lo : BitVec n) :
    (hi ++ lo).toNat = 2 ^ n * hi.toNat + lo.toNat := by
  rw [BitVec.toNat_append, ← Nat.shiftLeft_add_eq_or_of_lt lo.isLt, Nat.shiftLeft_eq, Nat.mul_comm]

theorem CmdPorts.bundle_toNat (p : CmdPorts) :
    p.bundle.toNat =
      p.op.toNat + 2 ^ 3 * p.din.toNat + 2 ^ 11 * p.ts.toNat + 2 ^ 43 * p.x.toNat + 2 ^ 59 * p.y.toNat +
        2 ^ 75 * p.z.toNat + 2 ^ 91 * p.ang.toNat := by
  simp only [CmdPorts.bundle, toNat_append_eq_add]
  omega

/-- The ports' bit ranges are adjacent and cover the bundle, so they join to it. -/
theorem CmdPorts.bundle_ofBundle (w : CmdWord) : (CmdPorts.ofBundle w).bundle = w := by
  simp (disch := decide) only [CmdPorts.bundle, CmdPorts.ofBundle,
    BitVec.extractLsb'_append_extractLsb'_eq_extractLsb', BitVec.extractLsb'_eq_self]

/-! The opcode map (R59 to R61). -/

/-- Settles O2: the bundle gives the canonical ports back, and their code is the instruction's. -/
theorem decodeInvertsEncode : Obligations.DecodeInvertsEncode := by
  intro i
  rw [encode, decode_bundle, Machine.decode_ports]

/-- Settles O3: concatenation adds the ports at their weights, and the ports of any bundle join to it. -/
theorem bundleIsTheSumOfItsPorts : Obligations.BundleIsTheSumOfItsPorts :=
  ⟨CmdPorts.bundle_toNat, CmdPorts.bundle_ofBundle⟩

/-- With the code written into the ports the row of the map can be read off. -/
theorem decode_of_code {w : CmdWord} {code : BitVec 3} (h : w.extractLsb' 0 3 = code) :
    decode w = CmdPorts.decode { CmdPorts.ofBundle w with op := code } := by
  rw [← h]
  rfl

/-- Settles O4: a known code selects its row by evaluation. -/
theorem codeSelectsTheCommand : Obligations.CodeSelectsTheCommand :=
  fun _ => ⟨decode_of_code, decode_of_code, decode_of_code, decode_of_code, decode_of_code, decode_of_code,
    decode_of_code, decode_of_code⟩

/-- Settles O1: each bundle is evaluated. -/
theorem specBundlesDecode : Obligations.SpecBundlesDecode := by
  unfold Obligations.SpecBundlesDecode
  decide

/-- The decoder sees the code and the fields of the code's format only (R59). -/
theorem CmdPorts.decode_congr {p q : CmdPorts} (hop : p.op = q.op) (hdin : p.op = 2 → p.din = q.din)
    (hsample : p.op = 3 → p.ts = q.ts ∧ p.x = q.x ∧ p.y = q.y ∧ p.z = q.z ∧ p.ang = q.ang) :
    p.decode = q.decode := by
  rw [CmdPorts.decode, CmdPorts.decode, ← hop]
  split
  case h_3 code => rw [hdin (BitVec.eq_of_toFin_eq code)]
  case h_4 code =>
    obtain ⟨hts, hx, hy, hz, hang⟩ := hsample (BitVec.eq_of_toFin_eq code)
    rw [hts, hx, hy, hz, hang]
  all_goals rfl

theorem ports_din_eq_zero (i : Instr) (h : i.ports.op ≠ 2) : i.ports.din = 0 := by
  cases i with
  | crcByte b => exact absurd rfl h
  | _ => rfl

theorem ports_sample_eq_zero (i : Instr) (h : i.ports.op ≠ 3) :
    i.ports.ts = 0 ∧ i.ports.x = 0 ∧ i.ports.y = 0 ∧ i.ports.z = 0 ∧ i.ports.ang = 0 := by
  cases i with
  | frmEncode ts x y z ang => exact absurd rfl h
  | _ => exact ⟨rfl, rfl, rfl, rfl, rfl⟩

end Sys2Proof

namespace Sys2Proof.Machine

theorem step_present_command (s : State) (p : CmdPorts) : step (s.present ⟨false, p⟩) = exec p.decode s := by
  rw [step_command (s := s.present ⟨false, p⟩) (p := ⟨false, p⟩) rfl rfl, decode_bundle]
  rfl

/-- Settles O5: a step with `rst` low sees the ports through the decoder only. -/
theorem ignoredFieldsChangeNothing : Obligations.IgnoredFieldsChangeNothing := by
  refine ⟨fun s p q hop hdin hsample => ?_, fun i => ⟨ports_din_eq_zero i, ports_sample_eq_zero i⟩⟩
  rw [step_present_command, step_present_command, CmdPorts.decode_congr hop hdin hsample]

/-! The packet in the bits of the operands (R50). -/

/-- Byte `j` of `le_k(v)` is bits `8j+7` to `8j` of `v`. -/
theorem leBytes_toNat (n : Nat) {w : Nat} (v : BitVec w) :
    leBytes n v.toNat = (List.range n).map fun j => v.extractLsb' (8 * j) 8 := by
  apply List.ext_getElem?
  intro j
  by_cases hj : j < n
  · rw [leBytes_getElem? n _ j hj, List.getElem?_map, List.getElem?_range hj]
    rfl
  · rw [List.getElem?_eq_none (by simpa using hj), List.getElem?_eq_none (by simpa using hj)]

theorem leBytes_two (v : Half) : leBytes 2 v.toNat = [v.extractLsb' 0 8, v.extractLsb' 8 8] :=
  leBytes_toNat 2 v

theorem leBytes_four (v : Word) :
    leBytes 4 v.toNat = [v.extractLsb' 0 8, v.extractLsb' 8 8, v.extractLsb' 16 8, v.extractLsb' 24 8] :=
  leBytes_toNat 4 v

theorem masked_angle_low_byte (ang : Half) : (ang &&& angleMask).extractLsb' 0 8 = ang.extractLsb' 0 8 := by
  have mask : angleMask.extractLsb' 0 8 = BitVec.allOnes 8 := rfl
  rw [BitVec.extractLsb'_and, mask, BitVec.and_allOnes]

theorem masked_angle_high_byte (ang : Half) :
    (ang &&& angleMask).extractLsb' 8 8 = (ang.extractLsb' 8 4).setWidth 8 := by
  have mask : (angleMask.extractLsb' 8 8).toNat = 2 ^ 4 - 1 := rfl
  apply BitVec.eq_of_toNat_eq
  rw [BitVec.extractLsb'_and, BitVec.toNat_and, mask, Nat.and_two_pow_sub_one_eq_mod]
  simp only [BitVec.extractLsb'_toNat, BitVec.toNat_setWidth]
  omega

/-- The 21 bytes the CRC covers, in the bits of the operands. -/
theorem body_hardware_bits (ts : Word) (x y z ang : Half) :
    body Config.hardware ts.toNat x.toNat y.toNat z.toNat ang.toNat =
      [0xFF, 0x47, 0x01, 0x00, 0x10,
        ts.extractLsb' 0 8, ts.extractLsb' 8 8, ts.extractLsb' 16 8, ts.extractLsb' 24 8,
        x.extractLsb' 0 8, x.extractLsb' 8 8, y.extractLsb' 0 8, y.extractLsb' 8 8, z.extractLsb' 0 8,
        z.extractLsb' 8 8, 0x00, 0x0A, ang.extractLsb' 0 8, (ang.extractLsb' 8 4).setWidth 8, 0x00, 0x00] := by
  simp only [body, payload, fTs, fI16, fAngle, trunc_toNat, leBytes_four, leBytes_two, masked_angle_low_byte,
    masked_angle_high_byte]
  rfl

/-- Settles O16: the body by its bits, and the CRC of it as two bytes. -/
theorem packetLayoutByBits : Obligations.PacketLayoutByBits := by
  intro ts x y z ang
  refine ⟨_, rfl, ?_⟩
  rw [encodePorts, encodePacket, trailer, leBytes_two, body_hardware_bits]

/-! The pseudo-commands (R66). -/

theorem runTrace_map_crcByte (bs : List Byte) (s : State) :
    runTrace (bs.map .crcByte) s = .next { s with acc := crcUpdate s.acc bs } := by
  induction bs generalizing s with
  | nil => rfl
  | cons b bs ih =>
    rw [List.map_cons, runTrace, exec_crcByte]
    exact ih { s with acc := crcByte s.acc b }

/-- Settles O21: `CRC.INIT` sets the value that `CRC16` starts from. -/
theorem crcMsgLeavesTheCrc : Obligations.CrcMsgLeavesTheCrc := by
  intro bs s
  rw [crcMsg, runTrace, exec_crcInit]
  exact runTrace_map_crcByte bs { s with acc := crcInit }

/-- `FRM.NEXT` to the end of the pending frame, by induction on the bytes that are left. -/
theorem runTrace_replicate_frmNext (bs : List Byte) (s : State) (left : s.idx.val + bs.length = 23)
    (held : ∀ j, j < bs.length → Memory.lookup s.fb (s.idx.val + j) = bs[j]?) :
    runTrace (List.replicate bs.length .frmNext) s = .next { s with sink := s.sink ++ bs, idx := 23 } := by
  induction bs generalizing s with
  | nil =>
    have idle : s.idx = 23 := Fin.ext left
    rw [List.append_nil, ← idle]
    rfl
  | cons b bs ih =>
    rw [List.length_cons] at left
    have pending : s.idx.val < 23 := by omega
    have shown : s.frameByte s.idx.val = b := s.frameByte_of_lookup _ b (held 0 bs.length.succ_pos)
    rw [List.length_cons, List.replicate_succ, runTrace, exec_frmNext_pending s pending, shown,
      List.append_cons s.sink b bs]
    refine ih ((s.emit b).setIdx ⟨s.idx.val + 1, Nat.succ_lt_succ pending⟩) ?_ fun j hj => ?_
    · simp only [State.setIdx_idx]
      omega
    · rw [State.setIdx_fb, State.emit_fb, State.setIdx_idx, Nat.add_assoc, Nat.add_comm 1 j]
      exact held (j + 1) (Nat.succ_lt_succ hj)

theorem State.lookup_of_written {s : State} {a : Nat} (h : (Memory.lookup s.fb a).isSome = true) :
    Memory.lookup s.fb a = some (s.frameByte a) := by
  obtain ⟨b, hb⟩ := Option.isSome_iff_exists.1 h
  rw [hb, s.frameByte_of_lookup a b hb]

/-- Settles O24: `FRM.DRAIN` is as many `FRM.NEXT` as bytes are left. -/
theorem drainEmitsTheRest : Obligations.DrainEmitsTheRest := by
  intro s written
  have drained := runTrace_replicate_frmNext (s.frameBytes s.idx.val (23 - s.idx.val)) s
  rw [State.frameBytes_length] at drained
  refine drained (by omega) fun j hj => ?_
  rw [s.frameBytes_getElem? _ _ j hj, State.lookup_of_written (written _ (by omega) (by omega))]

/-! The text of a trace (R65). -/

theorem byteOperand_of_byte {b : Int} (h0 : 0 ≤ b) (h255 : b ≤ 255) : byteOperand b = some (trunc 8 b) :=
  if_pos ⟨h0, h255⟩

theorem byteOperand_of_outside {b : Int} (h : b < 0 ∨ 255 < b) : byteOperand b = none :=
  if_neg (by omega)

/-- Settles O57: a sample's fields are truncated by definition, a byte operand is checked, and the three lines are
evaluated. -/
theorem assemblerTruncatesSamplesAndRejectsBytes : Obligations.AssemblerTruncatesSamplesAndRejectsBytes := by
  refine ⟨fun s ts x y z ang => rfl, fun s b h0 h255 => ?_, fun s b outside => ?_, ?_, ?_, ?_⟩
  · rw [TraceLine.expand, byteOperand_of_byte h0 h255]
  · rw [TraceLine.expand, byteOperand_of_outside outside]
  · decide +kernel
  · decide +kernel
  · decide +kernel

end Sys2Proof.Machine

/-! The CRC unit (40_crc.md): its functions on bits and byte sequences, and its commands. -/

namespace Sys2Proof.Machine

/-! One iteration and its repetition (R80, R81). -/

theorem crcShift1_of_low_bit_set {a : Half} (h : a.getLsbD 0 = true) : crcShift1 a = (a >>> 1) ^^^ crcPoly :=
  if_pos h

theorem crcShift1_of_low_bit_clear {a : Half} (h : a.getLsbD 0 = false) : crcShift1 a = a >>> 1 :=
  if_neg (Bool.eq_false_iff.1 h)

/-- Each bit comes from the bit above it, inverted where the polynomial has a 1 if bit 0 is set. -/
theorem crcShift1_getLsbD (a : Half) (k : Nat) :
    (crcShift1 a).getLsbD k = (a.getLsbD (k + 1) ^^ (a.getLsbD 0 && crcPoly.getLsbD k)) := by
  cases h : a.getLsbD 0 with
  | false => simp [crcShift1_of_low_bit_clear h, Nat.add_comm]
  | true => simp [crcShift1_of_low_bit_set h, Nat.add_comm]

theorem crcShift1_xor (a a' : Half) : crcShift1 (a ^^^ a') = crcShift1 a ^^^ crcShift1 a' := by
  apply BitVec.eq_of_getLsbD_eq
  intro k _
  simp only [crcShift1_getLsbD, BitVec.getLsbD_xor, Bool.and_xor_distrib_right, Bool.xor_assoc, Bool.xor_left_comm]

/-- Bit 15 of the result is bit 0 of the argument. -/
theorem crcShift1_getLsbD_fifteen (a : Half) : (crcShift1 a).getLsbD 15 = a.getLsbD 0 := by
  have top : crcPoly.getLsbD 15 = true := by decide
  rw [crcShift1_getLsbD, top, BitVec.getLsbD_of_ge a 16 le_rfl, Bool.and_true, Bool.false_xor]

/-- Nothing is lost: bit 15 of the result tells which bits were inverted. -/
theorem crcShift1_injective : Function.Injective crcShift1 := by
  intro a a' h
  have low : a.getLsbD 0 = a'.getLsbD 0 := by
    rw [← crcShift1_getLsbD_fifteen, ← crcShift1_getLsbD_fifteen, h]
  apply BitVec.eq_of_getLsbD_eq
  intro k _
  cases k with
  | zero => exact low
  | succ k =>
    have above := congrArg (BitVec.getLsbD · k) h
    simpa only [crcShift1_getLsbD, low, Bool.xor_right_inj, Bool.xor_left_inj] using above

/-- Settles O6: the two branches, the bits of the first one, the examples evaluated. -/
theorem crcShiftTestsTheLowBit : Obligations.CrcShiftTestsTheLowBit := by
  refine ⟨fun a low => ⟨crcShift1_of_low_bit_set low, ?_, ?_, ?_⟩, fun a => crcShift1_of_low_bit_clear, fun a => ?_,
    ?_, ?_, ?_, ?_⟩
  · rw [crcShift1_getLsbD_fifteen, low]
  · have inverted : crcPoly.getLsbD 13 = true := by decide
    rw [crcShift1_of_low_bit_set low, BitVec.getLsbD_xor, inverted, Bool.xor_true]
  · have inverted : crcPoly.getLsbD 0 = true := by decide
    rw [crcShift1_of_low_bit_set low, BitVec.getLsbD_xor, inverted, Bool.xor_true]
  · rw [BitVec.getLsbD_ushiftRight, BitVec.getLsbD_of_ge a _ le_rfl]
  · decide
  · decide
  · decide
  · decide

theorem crcShift_eq_iterate (n : Nat) (a : Half) : crcShift n a = crcShift1^[n] a := by
  induction n generalizing a with
  | zero => rfl
  | succ n ih => rw [crcShift, ih, Function.iterate_succ_apply]

/-- Settles O7: the high byte of the XOR's second operand is 0, the examples evaluated. -/
theorem crcByteIsEightShifts : Obligations.CrcByteIsEightShifts := by
  refine ⟨fun a b => crcShift_eq_iterate 8 _, fun a b => ?_, ?_, ?_, ?_, ?_, ?_⟩
  · have high : (b.setWidth 16).extractLsb' 8 8 = 0 := by
      apply BitVec.eq_of_getLsbD_eq
      intro k _
      simp
    rw [BitVec.extractLsb'_xor, high, BitVec.ofNat_eq_ofNat, BitVec.xor_zero]
  · decide +kernel
  · decide +kernel
  · decide +kernel
  · decide +kernel
  · decide +kernel

theorem crcShift_injective (n : Nat) : Function.Injective (crcShift n) := by
  rw [funext (crcShift_eq_iterate n)]
  exact crcShift1_injective.iterate n

theorem crcShift_xor (n : Nat) (a a' : Half) : crcShift n (a ^^^ a') = crcShift n a ^^^ crcShift n a' := by
  induction n generalizing a a' with
  | zero => rfl
  | succ n ih => rw [crcShift, crcShift1_xor, ih, crcShift, crcShift]

/-- Zero bits shift out without any XOR. -/
theorem crcShift_of_low_bits_clear (n : Nat) (a : Half) (h : ∀ k, k < n → a.getLsbD k = false) :
    crcShift n a = a >>> n := by
  induction n generalizing a with
  | zero => simp [crcShift]
  | succ n ih =>
    rw [crcShift, crcShift1_of_low_bit_clear (h 0 n.succ_pos), ih, ← BitVec.shiftRight_add, Nat.add_comm]
    intro k hk
    rw [BitVec.getLsbD_ushiftRight, Nat.add_comm]
    exact h (k + 1) (Nat.succ_lt_succ hk)

/-! One byte (R81, R90). -/

theorem crcByte_xor (a a' : Half) (b b' : Byte) :
    crcByte (a ^^^ a') (b ^^^ b') = crcByte a b ^^^ crcByte a' b' := by
  have regroup : (a ^^^ a') ^^^ (b ^^^ b').setWidth 16 = (a ^^^ b.setWidth 16) ^^^ (a' ^^^ b'.setWidth 16) := by
    rw [BitVec.setWidth_xor]
    ac_rfl
  rw [crcByte, regroup, crcShift_xor, crcByte, crcByte]

theorem crcByte_eq_crcByte_zero (a : Half) (b : Byte) : crcByte a b = crcByte (a ^^^ b.setWidth 16) 0 := by
  simp [crcByte]

theorem crcTable_eq (i : Byte) : crcTable i = crcByte 0 i := by
  simp [crcTable, crcByte]

theorem crcByte_injective (b : Byte) : Function.Injective (crcByte · b) :=
  fun _ _ h => (BitVec.xor_left_inj _).1 (crcShift_injective crcIter h)

/-- The byte that equals the accumulator's low byte clears it before the shifts (R85). -/
theorem crcByte_low_byte (a : Half) : crcByte a (a.setWidth 8) = a >>> 8 := by
  have bits (k : Nat) : (a ^^^ (a.setWidth 8).setWidth 16).getLsbD k = (a.getLsbD k && !decide (k < 8)) := by
    by_cases hk : k < 8
    · simp [hk, show k < 16 by omega]
    · simp [hk]
  rw [crcByte, crcIter, crcShift_of_low_bits_clear]
  · apply BitVec.eq_of_getLsbD_eq
    intro k _
    simp [bits]
  · intro k hk
    simp [bits, hk]

/-- The byte-parallel form (R90): the accumulator's own low byte makes the loop a plain shift, and how the byte fed
differs from it is looked up. -/
theorem crcByte_eq_table (a : Half) (b : Byte) : crcByte a b = (a >>> 8) ^^^ crcTable (a.setWidth 8 ^^^ b) := by
  have split : crcByte a b = crcByte (a ^^^ 0) (a.setWidth 8 ^^^ (a.setWidth 8 ^^^ b)) := by simp
  rw [split, crcByte_xor, crcByte_low_byte, crcTable_eq]

/-- Settles O10: linearity bit by bit, and the table form from it. -/
theorem crcIsLinear : Obligations.CrcIsLinear :=
  ⟨crcShift1_xor, crcByte_xor, crcByte_eq_crcByte_zero, crcByte_eq_table, fun _ => rfl⟩

/-! A sequence of bytes (R82, R83, R89). -/

theorem crcUpdate_eq_foldl (a : Half) (s : List Byte) : crcUpdate a s = s.foldl crcByte a := by
  induction s generalizing a with
  | nil => rfl
  | cons b s ih => exact ih (crcByte a b)

theorem crcUpdate_append (a : Half) (s t : List Byte) : crcUpdate a (s ++ t) = crcUpdate (crcUpdate a s) t := by
  simp only [crcUpdate_eq_foldl, List.foldl_append]

theorem crc16_append (s t : List Byte) : crc16 (s ++ t) = crcUpdate (crc16 s) t :=
  crcUpdate_append crcInit s t

theorem crc16_header : crc16 header = 0xAC74 := by
  decide +kernel

/-- Settles O8: the fold, the examples evaluated. -/
theorem crc16IsALeftFold : Obligations.Crc16IsALeftFold := by
  refine ⟨fun a => rfl, fun a b rest => rfl, crcUpdate_eq_foldl 0xFFFF, fun s => rfl, rfl, ?_, ?_, crc16_header⟩
  · decide +kernel
  · decide +kernel

/-- Settles O9: a left fold over a concatenation; a frame's body begins with the header. -/
theorem crcIsIncremental : Obligations.CrcIsIncremental := by
  refine ⟨crcUpdate_append, crc16_append, fun c ts x y z ang => ?_⟩
  rw [body, crc16_append, crc16_header]

/-! The residue (R91). -/

theorem crcUpdate_injective (s : List Byte) : Function.Injective (crcUpdate · s) := by
  induction s with
  | nil => exact fun _ _ h => h
  | cons b s ih => exact ih.comp (crcByte_injective b)

theorem shiftRight_eight_twice (a : Half) : a >>> 8 >>> 8 = 0 := by
  rw [← BitVec.shiftRight_add]
  exact BitVec.ushiftRight_eq_zero le_rfl

/-- The accumulator's own bytes, low byte first, shift it out whole. -/
theorem crcUpdate_own_bytes (a : Half) : crcUpdate a (leBytes 2 a.toNat) = 0 := by
  have high : a.extractLsb' 8 8 = (a >>> 8).setWidth 8 := rfl
  have low : a.extractLsb' 0 8 = a.setWidth 8 := rfl
  rw [leBytes_two, low, high]
  simp only [crcUpdate, crcByte_low_byte, shiftRight_eight_twice]

/-- Two bytes bring the accumulator to 0 exactly when they are its own. -/
theorem crcUpdate_pair_eq_zero_iff (a : Half) (b0 b1 : Byte) :
    crcUpdate a [b0, b1] = 0 ↔ a.toNat = fromLe [b0, b1] := by
  obtain ⟨v, hv⟩ : ∃ v : Half, v.toNat = fromLe [b0, b1] := ⟨⟨fromLe [b0, b1], fromLe_lt [b0, b1]⟩, rfl⟩
  have own : crcUpdate v [b0, b1] = 0 := by
    have := crcUpdate_own_bytes v
    rwa [hv, show leBytes 2 (fromLe [b0, b1]) = [b0, b1] from leBytes_fromLe [b0, b1]] at this
  rw [← own, (crcUpdate_injective [b0, b1]).eq_iff, ← hv, BitVec.toNat_inj]

/-- Settles O11: the CRC's own bytes shift it out, and by injectivity no other two bytes do. -/
theorem crcResidueIsZero : Obligations.CrcResidueIsZero := by
  refine ⟨fun m => ?_, fun m b0 b1 => ?_⟩
  · rw [crc16_append]
    exact crcUpdate_own_bytes (crc16 m)
  · rw [crc16_append]
    exact crcUpdate_pair_eq_zero_iff (crc16 m) b0 b1

/-! The commands (R84, R85). -/

theorem State.setAcc_frameBytes (s : State) (v : Half) (a n : Nat) :
    (s.setAcc v).frameBytes a n = s.frameBytes a n := by
  induction n generalizing a with
  | zero => rfl
  | succ n ih =>
    rw [State.frameBytes, ih (a + 1)]
    rfl

/-- Settles O13: the meaning of the command; `FB` reads alike before and after it. -/
theorem crcInitSetsAcc : Obligations.CrcInitSetsAcc := by
  refine ⟨exec_crcInit, fun w h => ?_, fun s t h => ?_, fun s => rfl, fun s t h differs => ?_⟩
  · obtain ⟨-, row, -⟩ := codeSelectsTheCommand w
    exact row h
  · rw [eq_of_next_of_next (exec_crcInit s) h]
    rfl
  · rw [eq_of_next_of_next (exec_crcInit s) h]
    change crcInit.toNat ≠ fromLe ((s.setAcc crcInit).frameBytes 21 2)
    rw [State.setAcc_frameBytes]
    exact differs.symm

/-- Of the 256 candidates that the table form leaves for a fixed point, two have the low byte they came from. -/
theorem crcTable_fixed_candidates :
    ∀ i : Byte, ((crcTable i >>> 8) ^^^ crcTable i).setWidth 8 = i →
      (crcTable i >>> 8) ^^^ crcTable i = 0x0000 ∨ (crcTable i >>> 8) ^^^ crcTable i = 0xC001 := by
  decide +kernel

/-- A fixed point is determined by the table entry of its low byte: `a >>> 8` is the entry's high byte. -/
theorem crcByte_zero_fixed_eq {a : Half} (h : crcByte a 0 = a) :
    a = (crcTable (a.setWidth 8) >>> 8) ^^^ crcTable (a.setWidth 8) := by
  have table : a = (a >>> 8) ^^^ crcTable (a.setWidth 8) := by
    have := crcByte_eq_table a 0
    rwa [h, BitVec.ofNat_eq_ofNat, BitVec.xor_zero] at this
  have high : a >>> 8 = crcTable (a.setWidth 8) >>> 8 := by
    have := congrArg (fun v : Half => v >>> 8) table
    simpa only [BitVec.ushiftRight_xor_distrib, shiftRight_eight_twice, BitVec.ofNat_eq_ofNat, BitVec.zero_xor]
      using this
  rwa [high] at table

theorem crcByte_zero_fixed_iff (a : Half) : crcByte a 0 = a ↔ a = 0x0000 ∨ a = 0xC001 := by
  constructor
  · intro h
    have candidate := crcByte_zero_fixed_eq h
    have := crcTable_fixed_candidates (a.setWidth 8)
    rw [← candidate] at this
    exact this rfl
  · rintro (rfl | rfl)
    · decide +kernel
    · decide +kernel

/-- Settles O14: the meaning of the command, the table form for the fixed points, the examples evaluated. -/
theorem crcByteFeedsOneByte : Obligations.CrcByteFeedsOneByte := by
  refine ⟨fun s b => exec_crcByte b s, fun w h => ?_, crcByte_zero_fixed_iff, crcByte_low_byte, ?_, ?_, ?_⟩
  · obtain ⟨-, -, row, -⟩ := codeSelectsTheCommand w
    exact row h
  · decide +kernel
  · decide +kernel
  · decide +kernel

/-! Traces of CRC commands (R88). -/

/-- A message part completes, and feeds the CRC unit its byte if it has one. -/
theorem exec_messagePart {i : Instr} (s : State) (part : isMessagePart i = true) :
    ∃ u : State, exec i s = .next u ∧ u.acc = crcUpdate s.acc (messageBytes [i]) := by
  cases i with
  | nop => exact ⟨s, exec_nop s, rfl⟩
  | crcByte b => exact ⟨_, exec_crcByte b s, rfl⟩
  | frmNext =>
    by_cases pending : s.idx.val < 23
    · exact ⟨_, exec_frmNext_pending s pending, rfl⟩
    · exact ⟨s, exec_frmNext_idle s (by omega), rfl⟩
  | crcInit => cases part
  | frmEncode ts x y z ang => cases part
  | reserved5 => cases part
  | reserved6 => cases part
  | reserved7 => cases part

theorem messageBytes_cons (i : Instr) (t : List Instr) :
    messageBytes (i :: t) = messageBytes [i] ++ messageBytes t := by
  cases i <;> rfl

/-- The CRC of a message is the update by the bytes its trace feeds, by induction on the trace. -/
theorem runTrace_messageParts (t : List Instr) (s : State) (parts : ∀ i ∈ t, isMessagePart i = true) :
    ∃ u : State, runTrace t s = .next u ∧ u.acc = crcUpdate s.acc (messageBytes t) := by
  induction t generalizing s with
  | nil => exact ⟨s, rfl, rfl⟩
  | cons i t ih =>
    obtain ⟨part, parts_t⟩ := List.forall_mem_cons.1 parts
    obtain ⟨v, hv, hacc⟩ := exec_messagePart s part
    obtain ⟨u, hu, hacc'⟩ := ih v parts_t
    refine ⟨u, ?_, ?_⟩
    · rw [runTrace, hv]
      exact hu
    · rw [hacc', hacc, messageBytes_cons i t, crcUpdate_append]

/-- Settles O20: `CRC.INIT` sets the value that `CRC16` starts from. -/
theorem crcTraceComputesCrc16 : Obligations.CrcTraceComputesCrc16 := by
  intro t s parts
  obtain ⟨u, hu, hacc⟩ := runTrace_messageParts t { s with acc := crcInit } parts
  refine ⟨runTrace_messageParts t s parts, u, ?_, hacc, hacc⟩
  rw [runTrace, exec_crcInit]
  exact hu

end Sys2Proof.Machine

/-! The framer (41_framer.md): the fields and the packet on integers, and what its commands build and send. -/

namespace Sys2Proof

/-- The legal configurations (00_scope.md R4). -/
theorem Config.wellFormed_iff (c : Config) :
    c.wellFormed = true ↔ (0 ≤ c.address ∧ c.address ≤ 255) ∧ 0 ≤ c.flags ∧ c.flags ≤ 255 := by
  simp only [Config.wellFormed, Bool.and_eq_true, decide_eq_true_eq, and_assoc]

end Sys2Proof

namespace Sys2Proof.Machine

/-! The fields (R100 to R104). -/

theorem fromLe_leBytes_toNat {k : Nat} (v : BitVec (8 * k)) : fromLe (leBytes k v.toNat) = v.toNat := by
  rw [fromLe_leBytes, Nat.mod_eq_of_lt v.isLt]

theorem fromLe_fTs (ts : Int) : (fromLe (fTs ts) : Int) = ts % 2 ^ 32 := by
  rw [fTs, fromLe_leBytes_toNat (k := 4), trunc_toNat_eq_emod]

theorem fromLe_fI16 (v : Int) : (fromLe (fI16 v) : Int) = v % 2 ^ 16 := by
  rw [fI16, fromLe_leBytes_toNat (k := 2), trunc_toNat_eq_emod]

/-- A coordinate within the signed range reads back as it is (R101). -/
theorem asSigned_fromLe_fI16 {v : Int} (lo : -32768 ≤ v) (hi : v ≤ 32767) : asSigned 16 (fromLe (fI16 v)) = v := by
  obtain ⟨-, -, signed⟩ := truncIsTheResidue
  rw [fI16, fromLe_leBytes_toNat (k := 2)]
  exact signed 16 v (by decide) lo (Int.lt_add_one_iff.2 hi)

theorem toNat_and_angleMask (v : Half) : (v &&& angleMask).toNat = v.toNat % 4096 := by
  rw [BitVec.toNat_and]
  exact Nat.and_two_pow_sub_one_eq_mod v.toNat 12

theorem fromLe_fAngle (ang : Int) : (fromLe (fAngle ang) : Int) = ang % 4096 := by
  have residue := trunc_toNat_eq_emod 16 ang
  rw [fAngle, fromLe_leBytes_toNat (k := 2), toNat_and_angleMask]
  omega

theorem fAngle_high_byte_le (ang : Int) (b : Byte) (h : (fAngle ang)[1]? = some b) : b.toNat ≤ 0x0F := by
  rw [fAngle, leBytes_getElem? 2 _ 1 (by decide), toNat_and_angleMask, Option.some.injEq] at h
  rw [← h, BitVec.toNat_ofNat, Nat.shiftRight_eq_div_pow]
  omega

theorem fU8_of_byte {c : Int} (h0 : 0 ≤ c) (h255 : c ≤ 255) : ∃ b : Byte, fU8 c = [b] ∧ (b.toNat : Int) = c :=
  ⟨trunc 8 c, rfl, trunc_toNat_of_unsigned 8 c h0 (Int.lt_add_one_iff.2 h255)⟩

/-- Settles O48: the value read back is that of `trunc_32`; the examples are evaluated. -/
theorem timestampField : Obligations.TimestampField :=
  ⟨fun ts => ⟨rfl, fTs_length ts, fromLe_fTs ts⟩, by decide +kernel⟩

/-- Settles O49: the value read back is that of `trunc_16`, in two's complement; the examples are evaluated. -/
theorem coordinateField : Obligations.CoordinateField :=
  ⟨fun v => ⟨rfl, fI16_length v, fromLe_fI16 v⟩, fun _ => asSigned_fromLe_fI16, by decide +kernel⟩

/-- Settles O50: the mask takes the residue modulo 4096; the examples are evaluated. -/
theorem angleField : Obligations.AngleField := by
  refine ⟨fun ang => ⟨rfl, fAngle_length ang, fromLe_fAngle ang, fAngle_high_byte_le ang⟩, fun ang h0 h => ?_,
    by decide +kernel⟩
  rw [fromLe_fAngle, Int.emod_eq_of_lt h0 h]

/-- Settles O51: a constant from 0 to 255 is its own residue; this hardware's bytes are evaluated. -/
theorem constantFields : Obligations.ConstantFields :=
  ⟨fun _ => fU8_of_byte, by decide⟩

/-! The packet (R105 to R109). -/

theorem payload_length (c : Config) (ts x y z ang : Int) : (payload c ts x y z ang).length = 16 := by
  have whole := body_length c ts x y z ang
  rw [body, List.length_append] at whole
  exact Nat.add_left_cancel whole

/-- Settles O52: each part by its definition and its length; the sample is evaluated. -/
theorem packetComposition : Obligations.PacketComposition :=
  ⟨fun c ts x y z ang => ⟨rfl, payload_length c ts x y z ang, rfl, body_length c ts x y z ang, rfl, rfl,
    encodePacket_length c ts x y z ang⟩, by decide +kernel⟩

section
variable (c : Config) (ts x y z ang : Int)

theorem encodePacket_ts : ((encodePacket c ts x y z ang).drop 5).take 4 = fTs ts := rfl

theorem encodePacket_x : ((encodePacket c ts x y z ang).drop 9).take 2 = fI16 x := rfl

theorem encodePacket_y : ((encodePacket c ts x y z ang).drop 11).take 2 = fI16 y := rfl

theorem encodePacket_z : ((encodePacket c ts x y z ang).drop 13).take 2 = fI16 z := rfl

theorem encodePacket_angle : ((encodePacket c ts x y z ang).drop 17).take 2 = fAngle ang := rfl

theorem encodePacket_header : (encodePacket c ts x y z ang).take 5 = header := rfl

theorem crc16_encodePacket : crc16 (encodePacket c ts x y z ang) = 0x0000 := by
  obtain ⟨residue, -⟩ := crcResidueIsZero
  exact residue (body c ts x y z ang)

end

theorem trunc_congr {n : Nat} {v w : Int} (h : v % 2 ^ n = w % 2 ^ n) : trunc n v = trunc n w := by
  rw [eq_trunc_iff_emod_eq, toNat_emod_two_pow, trunc_toNat_eq_emod, h]

theorem trunc_add_two_pow_mul (n : Nat) (v k : Int) : trunc n (v + 2 ^ n * k) = trunc n v :=
  trunc_congr (Int.add_mul_emod_self_left v _ k)

theorem fTs_periodic (ts k : Int) : fTs (ts + 2 ^ 32 * k) = fTs ts := by
  rw [fTs, trunc_add_two_pow_mul, fTs]

theorem fI16_periodic (v k : Int) : fI16 (v + 65536 * k) = fI16 v := by
  rw [fI16, show v + 65536 * k = v + 2 ^ 16 * k from rfl, trunc_add_two_pow_mul, fI16]

/-- Two bytes are determined by the number they read back as, here the angle modulo 4096. -/
theorem fAngle_periodic (ang k : Int) : fAngle (ang + 4096 * k) = fAngle ang := by
  have same : fromLe (fAngle (ang + 4096 * k)) = fromLe (fAngle ang) := by
    have := fromLe_fAngle ang
    have := fromLe_fAngle (ang + 4096 * k)
    omega
  rw [← leBytes_fromLe (fAngle (ang + 4096 * k)), same, fAngle_length, ← fAngle_length ang, leBytes_fromLe]

theorem encodePacket_periodic (c : Config) (ts x y z ang k1 k2 k3 k4 k5 : Int) :
    encodePacket c (ts + 2 ^ 32 * k1) (x + 65536 * k2) (y + 65536 * k3) (z + 65536 * k4) (ang + 4096 * k5) =
      encodePacket c ts x y z ang := by
  simp only [encodePacket, trailer, body, payload, fTs_periodic, fI16_periodic, fAngle_periodic]

/-- The angle field is below 4096, so the mask leaves it alone (R104). -/
theorem fromLe_fAngle_and_mask (ang : Int) : fromLe (fAngle ang) &&& 0x0FFF = fromLe (fAngle ang) := by
  have residue := fromLe_fAngle ang
  exact (Nat.and_two_pow_sub_one_eq_mod _ 12).trans (Nat.mod_eq_of_lt (by omega))

/-- Settles O53: each property is one of the field it speaks of, the fields standing at their offsets in the packet. -/
theorem packetProperties : Obligations.PacketProperties := by
  rintro c ts x y z ang p legal rfl
  obtain ⟨⟨address0, address255⟩, flags0, flags255⟩ := c.wellFormed_iff.1 legal
  rw [encodePacket_take, encodePacket_drop, encodePacket_x, encodePacket_y, encodePacket_z, encodePacket_ts,
    encodePacket_angle]
  refine ⟨encodePacket_length .., encodePacket_header .., (fromLe_trailer ..).symm, crc16_encodePacket ..,
    asSigned_fromLe_fI16, asSigned_fromLe_fI16, asSigned_fromLe_fI16, fun h0 h => ?_, fromLe_fAngle ang,
    fromLe_fAngle_and_mask ang, ⟨trunc 8 c.flags, trunc 8 c.address, rfl, ?_, rfl, ?_⟩, rfl, rfl,
    fun k1 k2 k3 k4 k5 => (encodePacket_periodic c ts x y z ang k1 k2 k3 k4 k5).symm⟩
  · rw [fromLe_fTs, Int.emod_eq_of_lt h0 h]
  · exact trunc_toNat_of_unsigned 8 _ flags0 (Int.lt_add_one_iff.2 flags255)
  · exact trunc_toNat_of_unsigned 8 _ address0 (Int.lt_add_one_iff.2 address255)

/-! `FRM.ENCODE` and `FRM.NEXT` (R110, R111). -/

/-- The first byte of every packet is the header's. -/
theorem encodePorts_getElem?_zero (c : Config) (ts : Word) (x y z ang : Half) :
    (encodePorts c ts x y z ang)[0]? = some 0xFF := rfl

/-- Settles O15: what was written into `FB` is the packet, and the outputs follow from `IDX = 0`. -/
theorem frmEncodeBuildsThePacket : Obligations.FrmEncodeBuildsThePacket := by
  refine ⟨fun ts x y z ang s idle => ?_, fun ts x y z ang s pending =>
    exec_frmEncode_busy ts x y z ang s (Nat.ne_of_lt pending), fun w code => ?_⟩
  · obtain ⟨t, he, hacc, hfb, hidx, hsink, hinputs⟩ := exec_frmEncode_next ts x y z ang s idle
    obtain ⟨hpacket, hbody, -⟩ := frameBytes_packet Config.hardware _ _ _ _ _ s.fb t hfb
    have hcrc : t.acc = crc16 (t.frameBytes 0 21) := by rw [hacc, hbody]
    have whole := frameHolds_of_packet Config.hardware _ _ _ _ _ s.fb t hfb
    have idx0 : t.idx.val = 0 := by rw [hidx]; rfl
    have inside (a : Nat) (ha : a < 23) :
        Memory.lookup t.fb a = (encodePorts Config.hardware ts x y z ang)[a]? := by
      rw [hfb]
      exact lookup_packet _ _ _ _ _ _ s.fb a ha
    have outside (a : Nat) (ha : 23 ≤ a) : Memory.lookup t.fb a = Memory.lookup s.fb a := by
      rw [hfb, Memory.lookup_putBytes, encodePorts_length, if_neg (by omega)]
    have shown (read : Nat) : t.dout read = 0xFF := by
      rw [t.dout_of_pending read (by omega), idx0]
      exact t.frameByte_of_lookup 0 _ ((inside 0 (by decide)).trans (encodePorts_getElem?_zero ..))
    refine ⟨t, he, inside, outside, hpacket, hcrc, by rw [hcrc, whole.crc], idx0, hsink, hinputs, ?_, shown, ?_, ?_,
      rfl⟩
    · rw [State.dvalid, idx0]
      rfl
    · rw [State.dlast, idx0]
      rfl
    · rw [State.frmReady, idx0]
      rfl
  · obtain ⟨-, -, -, row, -⟩ := codeSelectsTheCommand w
    exact row code

/-- Settles O18: the two cases of the command, and the port it takes its byte from. -/
theorem frmNextEmitsTheNextByte : Obligations.FrmNextEmitsTheNextByte := by
  refine ⟨exec_frmNext_pending, exec_frmNext_idle, State.dout_of_pending, fun w code => ?_⟩
  obtain ⟨-, -, -, -, row, -⟩ := codeSelectsTheCommand w
  exact row code

/-! Sending a frame, with other commands among the `FRM.NEXT` (R112, R113). -/

theorem nextCount_cons (i : Instr) (t : List Instr) : nextCount (i :: t) = nextCount [i] + nextCount t := by
  cases i with
  | frmNext => exact Nat.add_comm _ _
  | _ => exact (Nat.zero_add _).symm

theorem nextCount_replicate_frmNext (k : Nat) : nextCount (List.replicate k .frmNext) = k := by
  induction k with
  | zero => rfl
  | succ k ih => rw [List.replicate_succ, nextCount, ih]

/-- A command of a frame's sending completes, leaves `FB` alone, and moves a byte to `SINK` if it is `FRM.NEXT`. -/
theorem exec_sendPart {i : Instr} (s : State) (part : isSendPart i = true)
    (room : s.idx.val + nextCount [i] ≤ 23) :
    ∃ u : State, exec i s = .next u ∧ u.fb = s.fb ∧ u.idx.val = s.idx.val + nextCount [i] ∧
      u.sink = s.sink ++ s.frameBytes s.idx.val (nextCount [i]) := by
  cases i with
  | nop => exact ⟨s, exec_nop s, rfl, rfl, (List.append_nil _).symm⟩
  | crcInit => exact ⟨_, exec_crcInit s, rfl, rfl, (List.append_nil _).symm⟩
  | crcByte b => exact ⟨_, exec_crcByte b s, rfl, rfl, (List.append_nil _).symm⟩
  | frmNext => exact ⟨_, exec_frmNext_pending s room, rfl, rfl, rfl⟩
  | frmEncode ts x y z ang => cases part
  | reserved5 => cases part
  | reserved6 => cases part
  | reserved7 => cases part

/-- Sending from a whole frame emits its bytes from `IDX` on, by induction on the trace. -/
theorem runTrace_sendParts {c : Config} (t : List Instr) (s : State) (whole : FrameHolds c s)
    (parts : ∀ i ∈ t, isSendPart i = true) (room : s.idx.val + nextCount t ≤ 23) :
    ∃ u : State, runTrace t s = .next u ∧ u.fb = s.fb ∧ u.idx.val = s.idx.val + nextCount t ∧
      u.sink = s.sink ++ s.frameBytes s.idx.val (nextCount t) := by
  induction t generalizing s with
  | nil => exact ⟨s, rfl, rfl, rfl, (List.append_nil _).symm⟩
  | cons i t ih =>
    obtain ⟨part, parts_t⟩ := List.forall_mem_cons.1 parts
    rw [nextCount_cons] at room ⊢
    obtain ⟨v, hv, vfb, vidx, vsink⟩ := exec_sendPart s part (by omega)
    obtain ⟨u, hu, ufb, uidx, usink⟩ := ih v (whole.of_fb_eq vfb) parts_t (by omega)
    refine ⟨u, ?_, ufb.trans vfb, by omega, ?_⟩
    · rw [runTrace, hv]
      exact hu
    · rw [usink, vsink, vidx, whole.frameBytes_eq vfb (by omega), State.frameBytes_add, List.append_assoc]

theorem State.take_frameBytes (s : State) (a : Nat) {k n : Nat} (h : k ≤ n) :
    (s.frameBytes a n).take k = s.frameBytes a k := by
  obtain ⟨m, rfl⟩ := Nat.exists_eq_add_of_le h
  rw [State.frameBytes_add, List.take_left' (s.frameBytes_length a k)]

/-- After `FRM.ENCODE` and `k` `FRM.NEXT` the packet stands in `FB`, and its first `k` bytes are sent. -/
theorem runTrace_frmEncode_sendParts (ts : Word) (x y z ang : Half) (t : List Instr) (s : State)
    (idle : s.idx.val = 23) (parts : ∀ i ∈ t, isSendPart i = true) (room : nextCount t ≤ 23) :
    ∃ u : State, runTrace (.frmEncode ts x y z ang :: t) s = .next u ∧
      u.frameBytes 0 23 = encodePorts Config.hardware ts x y z ang ∧ u.idx.val = nextCount t ∧
      u.sink = s.sink ++ (encodePorts Config.hardware ts x y z ang).take (nextCount t) := by
  obtain ⟨v, hv, -, vfb, vidx, vsink, -⟩ := exec_frmEncode_next ts x y z ang s idle
  obtain ⟨packet, -, -⟩ := frameBytes_packet Config.hardware _ _ _ _ _ s.fb v vfb
  have whole := frameHolds_of_packet Config.hardware _ _ _ _ _ s.fb v vfb
  have start : v.idx.val = 0 := by rw [vidx]; rfl
  obtain ⟨u, hu, ufb, uidx, usink⟩ := runTrace_sendParts t v whole parts (by omega)
  refine ⟨u, ?_, (whole.frameBytes_eq ufb le_rfl).trans packet, by omega, ?_⟩
  · rw [runTrace, hv]
    exact hu
  · rw [usink, vsink, start, encodePorts, ← packet, v.take_frameBytes 0 room]

/-- Settles O23: `dout` shows the byte of the packet that is not yet sent. -/
theorem outputsWhileAFrameIsSent : Obligations.OutputsWhileAFrameIsSent := by
  intro ts x y z ang t s idle parts room
  obtain ⟨u, hu, packet, uidx, usink⟩ := runTrace_frmEncode_sendParts ts x y z ang t s idle parts room
  refine ⟨u, hu, uidx, usink, fun pending => ⟨?_, ?_, ?_, fun read => ?_⟩, fun sent => ⟨?_, ?_, ?_⟩⟩
  · exact decide_eq_true (by omega)
  · exact decide_eq_false (by omega)
  · rw [State.dlast, decide_eq_true_eq, uidx]
  · rw [← packet, u.frameBytes_getElem? 0 23 _ pending, u.dout_of_pending read (by omega), uidx, Nat.zero_add]
  · exact decide_eq_false (by omega)
  · exact decide_eq_true (by omega)
  · exact decide_eq_false (by omega)

/-- A sent frame is the whole packet, whatever commands stand among its 23 `FRM.NEXT`. -/
theorem runTrace_whole_frame (ts : Word) (x y z ang : Half) (t : List Instr) (s : State) (idle : s.idx.val = 23)
    (parts : ∀ i ∈ t, isSendPart i = true) (all : nextCount t = 23) :
    ∃ u : State, runTrace (.frmEncode ts x y z ang :: t) s = .next u ∧
      u.sink = s.sink ++ encodePorts Config.hardware ts x y z ang ∧ u.idx.val = 23 := by
  obtain ⟨u, hu, -, uidx, usink⟩ := runTrace_frmEncode_sendParts ts x y z ang t s idle parts all.le
  refine ⟨u, hu, ?_, uidx.trans all⟩
  rw [usink, all, List.take_of_length_le (encodePorts_length ..).le]

theorem runTrace_append_of_next {t : List Instr} {s u : State} (h : runTrace t s = .next u) (t' : List Instr) :
    runTrace (t ++ t') s = runTrace t' u := by
  induction t generalizing s with
  | nil =>
    cases h
    rfl
  | cons i t ih =>
    obtain ⟨v, hv, hrest⟩ := runTrace_cons_next h
    rw [List.cons_append, runTrace, hv]
    exact ih hrest

theorem Sample.runTrace_send (p : Sample) (s : State) (idle : s.idx.val = 23) :
    ∃ u : State, runTrace p.send s = .next u ∧ u.sink = s.sink ++ p.packet ∧ u.idx.val = 23 := by
  refine runTrace_whole_frame p.ts p.x p.y p.z p.ang (List.replicate 23 .frmNext) s idle (fun i hi => ?_)
    (nextCount_replicate_frmNext 23)
  rw [List.eq_of_mem_replicate hi]
  rfl

theorem Sample.flatMap_packet_length (ps : List Sample) : (ps.flatMap Sample.packet).length = 23 * ps.length := by
  induction ps with
  | nil => rfl
  | cons p ps ih =>
    rw [List.flatMap_cons, List.length_append, ih, Sample.packet, encodePorts_length, List.length_cons]
    omega

/-- Every `FRM.SEND` starts where the one before it ended, with no frame pending; by induction on the samples. -/
theorem Sample.runTrace_flatMap_send (ps : List Sample) (s : State) (idle : s.idx.val = 23) :
    ∃ u : State, runTrace (ps.flatMap Sample.send) s = .next u ∧ u.sink = s.sink ++ ps.flatMap Sample.packet ∧
      u.idx.val = 23 := by
  induction ps generalizing s with
  | nil => exact ⟨s, rfl, (List.append_nil _).symm, idle⟩
  | cons p ps ih =>
    obtain ⟨v, hv, vsink, vidle⟩ := p.runTrace_send s idle
    obtain ⟨u, hu, usink, uidle⟩ := ih v vidle
    refine ⟨u, ?_, ?_, uidle⟩
    · rw [List.flatMap_cons, runTrace_append_of_next hv, hu]
    · rw [usink, vsink, List.flatMap_cons, List.append_assoc]

/-- Settles O22: one frame by its 23 bytes, any number of them by induction on the samples. -/
theorem sendAppendsThePacket : Obligations.SendAppendsThePacket := by
  refine ⟨runTrace_whole_frame, fun ps s idle => ?_⟩
  obtain ⟨u, hu, usink, uidle⟩ := Sample.runTrace_flatMap_send ps s idle
  exact ⟨u, hu, usink, Sample.flatMap_packet_length ps, uidle⟩

/-! What `ACC` reaches (R177). -/

/-- `FRM.ENCODE` sets `ACC` before it reads it (R110). -/
theorem exec_frmEncode_setAcc (ts : Word) (x y z ang : Half) (s : State) (a : Half) (idle : s.idx.val = 23) :
    exec (.frmEncode ts x y z ang) (s.setAcc a) = exec (.frmEncode ts x y z ang) s := by
  rw [exec_frmEncode_idle ts x y z ang s idle, exec_frmEncode_idle ts x y z ang (s.setAcc a) idle]
  simp only [State.setAcc]

/-- Two states that differ in `ACC` alone run a command alike: the next states differ in `ACC` alone. -/
theorem exec_setAcc_cases (i : Instr) (s : State) (a : Half) :
    (∃ (t : State) (a' : Half), exec i s = .next t ∧ exec i (s.setAcc a) = .next (t.setAcc a')) ∨
      ∃ r : Refusal, exec i s = .refused r ∧ exec i (s.setAcc a) = .refused r := by
  cases i with
  | nop => exact .inl ⟨s, a, rfl, rfl⟩
  | crcInit => exact .inl ⟨_, crcInit, exec_crcInit s, rfl⟩
  | crcByte b => exact .inl ⟨_, crcByte a b, exec_crcByte b s, rfl⟩
  | frmEncode ts x y z ang =>
    by_cases idle : s.idx.val = 23
    · obtain ⟨t, ht, -⟩ := exec_frmEncode_next ts x y z ang s idle
      exact .inl ⟨t, t.acc, ht, (exec_frmEncode_setAcc ts x y z ang s a idle).trans ht⟩
    · exact .inr ⟨_, exec_frmEncode_busy ts x y z ang s idle, exec_frmEncode_busy ts x y z ang (s.setAcc a) idle⟩
  | frmNext =>
    by_cases pending : s.idx.val < 23
    · exact .inl ⟨_, a, exec_frmNext_pending s pending, exec_frmNext_pending (s.setAcc a) pending⟩
    · have idle : s.idx.val = 23 := by omega
      exact .inl ⟨s, a, exec_frmNext_idle s idle, exec_frmNext_idle (s.setAcc a) idle⟩
  | reserved5 => exact .inr ⟨.reservedOp 5, rfl, rfl⟩
  | reserved6 => exact .inr ⟨.reservedOp 6, rfl, rfl⟩
  | reserved7 => exact .inr ⟨.reservedOp 7, rfl, rfl⟩

theorem step_nothing_presented {s : State} (hin : s.inputs = []) : step s = .next s := by
  simp only [step, cycle, hin]

theorem step_reset {s : State} {p : PortsIn} {rest : List PortsIn} (hin : s.inputs = p :: rest)
    (hrst : p.rst = true) : step s = .next (resetStep (s.setInputs rest)) := by
  simp only [step, cycle, hin, hrst, if_true]

/-- Two states that differ in `ACC` alone step alike: the next states differ in `ACC` alone. -/
theorem step_setAcc_cases (s : State) (a : Half) :
    (∃ (t : State) (a' : Half), step s = .next t ∧ step (s.setAcc a) = .next (t.setAcc a')) ∨
      ∃ r : Refusal, step s = .refused r ∧ step (s.setAcc a) = .refused r := by
  cases hin : s.inputs with
  | nil => exact .inl ⟨s, a, step_nothing_presented hin, step_nothing_presented (s := s.setAcc a) hin⟩
  | cons p rest =>
    cases hrst : p.rst with
    | true => exact .inl ⟨_, crcInit, step_reset hin hrst, step_reset (s := s.setAcc a) hin hrst⟩
    | false =>
      rw [step_command hin hrst, step_command (s := s.setAcc a) hin hrst]
      exact exec_setAcc_cases (decode p.cmd.bundle) (s.setInputs rest) a

/-- Settles O41: the two next states differ in `ACC` alone. -/
theorem accNeverReachesTheSink : Obligations.AccNeverReachesTheSink := by
  refine ⟨fun s t a h => ?_, fun s a r h => ?_⟩
  · rcases step_setAcc_cases s a with ⟨t', a', ht, hu⟩ | ⟨r, hr, -⟩
    · rw [eq_of_next_of_next ht h]
      exact ⟨t'.setAcc a', hu, rfl, rfl, rfl, rfl⟩
    · cases hr.symm.trans h
  · rcases step_setAcc_cases s a with ⟨t', a', ht, -⟩ | ⟨r', hr, hu⟩
    · cases ht.symm.trans h
    · rw [hu, ← hr, h]

end Sys2Proof.Machine

/-! `NOP` and the reserved codes (42_misc.md R130, R131). -/

namespace Sys2Proof.Machine

/-! The reserved codes (R131). -/

theorem exec_reserved5 (s : State) : exec .reserved5 s = .refused (.reservedOp 5) := rfl

theorem exec_reserved6 (s : State) : exec .reserved6 s = .refused (.reservedOp 6) := rfl

theorem exec_reserved7 (s : State) : exec .reserved7 s = .refused (.reservedOp 7) := rfl

theorem reserved_code_cases {code : BitVec 3} (reserved : 5 ≤ code.toNat) : code = 5 ∨ code = 6 ∨ code = 7 := by
  bv_omega

/-- Settles O19: each reserved code selects its row of the map, and the row is refused with it. -/
theorem reservedCodesAreRefused : Obligations.ReservedCodesAreRefused := by
  refine ⟨fun s => ⟨exec_reserved5 s, exec_reserved6 s, exec_reserved7 s⟩, fun s w reserved => ?_⟩
  obtain ⟨-, -, -, -, -, row5, row6, row7⟩ := codeSelectsTheCommand w
  rcases reserved_code_cases reserved with code | code | code
  · rw [row5 code, code, exec_reserved5]
  · rw [row6 code, code, exec_reserved6]
  · rw [row7 code, code, exec_reserved7]

/-! `NOP` (R130). -/

theorem runTrace_cons_nop (t : List Instr) (s : State) : runTrace (.nop :: t) s = runTrace t s := by
  rw [runTrace, exec_nop]

/-- Traces that run alike from every state do so behind a common first command, which may stop the run. -/
theorem runTrace_cons_congr (i : Instr) {t t' : List Instr} (tails : ∀ s, runTrace t s = runTrace t' s) (s : State) :
    runTrace (i :: t) s = runTrace (i :: t') s := by
  simp only [runTrace, tails]

theorem runTrace_filter_ne_nop (t : List Instr) (s : State) :
    runTrace (t.filter fun i => decide (i ≠ .nop)) s = runTrace t s := by
  induction t generalizing s with
  | nil => rfl
  | cons i t ih =>
    by_cases isNop : i = .nop
    · rw [List.filter_cons_of_neg (by simp [isNop]), isNop, runTrace_cons_nop, ih]
    · rw [List.filter_cons_of_pos (by simp [isNop])]
      exact runTrace_cons_congr i ih s

/-- Settles O12: a `NOP` hands the state on unchanged, so a trace runs without it as with it. -/
theorem nopChangesNothing : Obligations.NopChangesNothing := by
  refine ⟨exec_nop, fun w code => ?_, rfl, runTrace_filter_ne_nop⟩
  obtain ⟨row, -⟩ := codeSelectsTheCommand w
  exact row code

end Sys2Proof.Machine

/-! Refusals, faults and the idle block (60_exceptions.md): the listed conditions are the only ones under which a command
does something other than its effect. -/

namespace Sys2Proof.Machine

/-! What a refused command, and a refused step, can be (R141). -/

/-- `CommandRefused s i r`: command `i` is refused with `r` on `s`, by an entry of R141 (the configuration's own apart).
`CommandEffect` lists the commands that complete. -/
inductive CommandRefused (s : State) : Instr → Refusal → Prop where
  | reserved5 : CommandRefused s .reserved5 (.reservedOp 5)
  | reserved6 : CommandRefused s .reserved6 (.reservedOp 6)
  | reserved7 : CommandRefused s .reserved7 (.reservedOp 7)
  | frmEncode (ts : Word) (x y z ang : Half) (pending : s.idx.val < 23) :
      CommandRefused s (.frmEncode ts x y z ang) .frameBusy

section
variable {c : Config} {i : Instr} {s t : State} {r : Refusal}

theorem commandRefused_iff : CommandRefused s i r ↔
    (i = .reserved5 ∧ r = .reservedOp 5) ∨ (i = .reserved6 ∧ r = .reservedOp 6) ∨
    (i = .reserved7 ∧ r = .reservedOp 7) ∨
    ((∃ (ts : Word) (x y z ang : Half), i = .frmEncode ts x y z ang) ∧ s.idx.val < 23 ∧ r = .frameBusy) := by
  constructor
  · intro h
    cases h with
    | reserved5 => exact .inl ⟨rfl, rfl⟩
    | reserved6 => exact .inr (.inl ⟨rfl, rfl⟩)
    | reserved7 => exact .inr (.inr (.inl ⟨rfl, rfl⟩))
    | frmEncode ts x y z ang pending => exact .inr (.inr (.inr ⟨⟨ts, x, y, z, ang, rfl⟩, pending, rfl⟩))
  · rintro (⟨rfl, rfl⟩ | ⟨rfl, rfl⟩ | ⟨rfl, rfl⟩ | ⟨⟨ts, x, y, z, ang, rfl⟩, pending, rfl⟩)
    · exact .reserved5
    · exact .reserved6
    · exact .reserved7
    · exact .frmEncode ts x y z ang pending

theorem CommandRefused.ne_badConfig (h : CommandRefused s i r) : r ≠ .badConfig := by
  cases h <;> nofun

theorem CommandRefused.not_accepts (h : CommandRefused s i r) : ¬accepts i s = true := by
  cases h with
  | frmEncode ts x y z ang pending => simpa [accepts, State.frmReady] using pending.ne
  | _ => exact Bool.false_ne_true

theorem CommandEffect.accepts_eq_true (h : CommandEffect c s i t) : accepts i s = true := by
  cases h with
  | frmEncode ts x y z ang idle => simpa [accepts, State.frmReady] using idle
  | _ => rfl

theorem execWith_of_commandRefused (h : CommandRefused s i r) : execWith c i s = .refused r := by
  cases h with
  | frmEncode ts x y z ang pending =>
    exact (frmEncodeWith_cases c ts x y z ang s).elim (fun no => absurd no.1 pending.ne) And.right
  | _ => rfl

end

/-- A command completes or is refused by the list; the third outcome, a fault, has no case. -/
theorem execWith_next_or_refused (c : Config) (i : Instr) (s : State) :
    (∃ t : State, execWith c i s = .next t) ∨ ∃ r : Refusal, CommandRefused s i r ∧ execWith c i s = .refused r := by
  cases i with
  | nop => exact .inl ⟨s, exec_nop s⟩
  | crcInit => exact .inl ⟨_, exec_crcInit s⟩
  | crcByte b => exact .inl ⟨_, exec_crcByte b s⟩
  | frmEncode ts x y z ang =>
    rcases frmEncodeWith_cases c ts x y z ang s with ⟨-, e⟩ | ⟨busy, e⟩
    · exact .inl ⟨_, e⟩
    · exact .inr ⟨_, .frmEncode ts x y z ang (by omega), e⟩
  | frmNext =>
    rcases execFrmNext_cases s with ⟨_, e⟩ | ⟨_, e⟩
    · exact .inl ⟨_, e⟩
    · exact .inl ⟨_, e⟩
  | reserved5 => exact .inr ⟨_, .reserved5, exec_reserved5 s⟩
  | reserved6 => exact .inr ⟨_, .reserved6, exec_reserved6 s⟩
  | reserved7 => exact .inr ⟨_, .reserved7, exec_reserved7 s⟩

/-- A step completes or is refused, and its refusal is a command's by the list, or `BadConfig` outside R4. -/
theorem stepWith_next_or_refused (c : Config) (s : State) :
    (c.wellFormed = true ∧ ∃ t : State, stepWith c s = .next t) ∨
      (c.wellFormed = true ∧ ∃ (u : State) (i : Instr) (r : Refusal),
        CommandRefused u i r ∧ stepWith c s = .refused r) ∨
      (¬c.wellFormed = true ∧ stepWith c s = .refused .badConfig) := by
  by_cases legal : c.wellFormed = true
  · rw [stepWith, if_pos legal]
    rcases cycle_cases (execWith c) s with ⟨-, e⟩ | ⟨p, rest, -, -, e⟩ | ⟨p, rest, -, -, e⟩
    · exact .inl ⟨legal, _, e⟩
    · exact .inl ⟨legal, _, e⟩
    · rcases execWith_next_or_refused c p.cmd.decode { s with inputs := rest } with ⟨t, ht⟩ | ⟨r, listed, hr⟩
      · exact .inl ⟨legal, t, e.trans ht⟩
      · exact .inr (.inl ⟨legal, _, _, r, listed, e.trans hr⟩)
  · exact .inr (.inr ⟨legal, if_neg legal⟩)

/-! The list is exact, in both directions (R141). -/

theorem execWith_next_iff_accepts (c : Config) (i : Instr) (s : State) :
    (∃ t : State, execWith c i s = .next t) ↔ accepts i s = true := by
  refine ⟨fun ⟨_, ht⟩ => (commandEffect_of_execWith ht).accepts_eq_true, fun accepted => ?_⟩
  rcases execWith_next_or_refused c i s with completes | ⟨r, listed, -⟩
  · exact completes
  · exact absurd accepted listed.not_accepts

theorem execWith_ne_fault (c : Config) (i : Instr) (s : State) (f : Fault) : execWith c i s ≠ .fault f := by
  intro h
  rcases execWith_next_or_refused c i s with ⟨t, e⟩ | ⟨r, -, e⟩ <;> cases e.symm.trans h

theorem execWith_refused_iff (c : Config) (i : Instr) (s : State) (r : Refusal) :
    execWith c i s = .refused r ↔ CommandRefused s i r := by
  refine ⟨fun h => ?_, execWith_of_commandRefused⟩
  rcases execWith_next_or_refused c i s with ⟨t, e⟩ | ⟨r', listed, e⟩
  · cases e.symm.trans h
  · cases e.symm.trans h
    exact listed

theorem stepWith_badConfig_iff (c : Config) (s : State) :
    stepWith c s = .refused .badConfig ↔ ¬c.wellFormed = true := by
  refine ⟨fun h => ?_, fun illegal => if_neg illegal⟩
  rcases stepWith_next_or_refused c s with ⟨-, t, e⟩ | ⟨-, u, i, r, listed, e⟩ | ⟨illegal, -⟩
  · cases e.symm.trans h
  · cases e.symm.trans h
    exact absurd rfl listed.ne_badConfig
  · exact illegal

/-- Settles O33: a command completes or is refused by the list, and the list's commands are those not accepted. -/
theorem refusalsAreExactlyTheListed : Obligations.RefusalsAreExactlyTheListed := by
  refine ⟨fun i s => ?_, fun i s f => ?_, fun i s r => ?_, fun c s => ?_⟩
  · rw [← execWith_hardware]
    exact (execWith_next_iff_accepts Config.hardware i s).symm
  · rw [← execWith_hardware]
    exact execWith_ne_fault Config.hardware i s f
  · rw [← execWith_hardware, execWith_refused_iff, commandRefused_iff]
  · rw [stepWith_badConfig_iff, Config.wellFormed_iff, and_assoc]

/-! No fault (R140, 20_memory.md R41). -/

theorem stepWith_ne_fault (c : Config) (s : State) (f : Fault) : stepWith c s ≠ .fault f := by
  intro h
  rcases stepWith_next_or_refused c s with ⟨-, t, e⟩ | ⟨-, u, i, r, -, e⟩ | ⟨-, e⟩ <;> cases e.symm.trans h

/-- Settles O35: a step completes or is refused in every configuration, the hardware's included. -/
theorem noStepFaults : Obligations.NoStepFaults := by
  obtain ⟨-, -, -, same⟩ := stepIsTheHardwareConfigurationsStep
  refine ⟨fun s f => ?_, stepWith_ne_fault⟩
  rw [same s]
  exact stepWith_ne_fault Config.hardware s f

/-! The idle block (R155). -/

/-- Settles O27: with no ports to sample the step hands the state on. -/
theorem nothingPresentedHoldsTheState : Obligations.NothingPresentedHoldsTheState :=
  fun _ => step_nothing_presented

end Sys2Proof.Machine

/-! Reset and the hazards of a stream (70_reset_and_hazards.md): what a reset step leaves, the fragment of a frame it
cuts, the accumulator both units share, and what a complete run shows. -/

namespace Sys2Proof.Machine

/-! The reset step (R170, R171, R173). -/

theorem resetStep_resetStep (s : State) : resetStep (resetStep s) = resetStep s := rfl

/-- A reset step consumes its ports and no more, and does not look at the bundle (R171). -/
theorem step_present_reset (s : State) (p : CmdPorts) : step (s.present ⟨true, p⟩) = .next (resetStep s) :=
  step_reset (s := s.present ⟨true, p⟩) rfl rfl

/-- Settles O28: the reset step's state field by field; the outputs are read off `ACC` and `IDX`. -/
theorem resetStepSetsAccAndIdx : Obligations.ResetStepSetsAccAndIdx :=
  fun _ _ _ hin hrst => ⟨_, step_reset hin hrst, rfl, rfl, rfl, rfl, rfl, rfl, rfl, rfl⟩

/-- Settles O29: the reset step leaves the empty list of written locations. -/
theorem resetStepEmptiesTheFrame : Obligations.ResetStepEmptiesTheFrame := by
  intro s t p rest hin hrst h a
  rw [eq_of_next_of_next (step_reset hin hrst) h, resetStep_fb, Memory.lookup]

/-- Settles O30: whatever the bundle, the next state is `resetStep s`, which a second reset step leaves as it is. -/
theorem resetHasPriority : Obligations.ResetHasPriority := by
  refine ⟨fun s p q => ?_, fun s p => ⟨_, step_present_reset s p⟩, fun s t p q h => ?_⟩
  · rw [step_present_reset, step_present_reset]
  · rw [eq_of_next_of_next (step_present_reset s p) h, step_present_reset, resetStep_resetStep]

/-! A frame cut by reset (R172). -/

/-- `FRM.ENCODE` and `k` `FRM.NEXT` from an idle state: `k` bytes of the packet are sent. -/
theorem runTrace_frmEncode_frmNexts (ts : Word) (x y z ang : Half) (s : State) {k : Nat} (idle : s.idx.val = 23)
    (room : k ≤ 23) :
    ∃ t : State, runTrace (.frmEncode ts x y z ang :: List.replicate k .frmNext) s = .next t ∧ t.idx.val = k ∧
      t.sink = s.sink ++ (encodePorts Config.hardware ts x y z ang).take k := by
  have parts : ∀ i ∈ List.replicate k Instr.frmNext, isSendPart i = true := by
    intro i hi
    rw [List.eq_of_mem_replicate hi, isSendPart]
  have count := nextCount_replicate_frmNext k
  obtain ⟨t, ht, -, tidx, tsink⟩ := runTrace_frmEncode_sendParts ts x y z ang _ s idle parts (count.le.trans room)
  rw [count] at tidx tsink
  exact ⟨t, ht, tidx, tsink⟩

/-- Settles O32: reset keeps what `SINK` has received and leaves no frame pending, so the next packet is sent whole. -/
theorem resetLeavesAFragment : Obligations.ResetLeavesAFragment := by
  intro ts x y z ang p k s idle cut
  obtain ⟨t, ht, tidx, tsink⟩ := runTrace_frmEncode_frmNexts ts x y z ang s idle cut.le
  obtain ⟨u, hu, usink, -⟩ := p.runTrace_send (resetStep t) rfl
  rw [resetStep_sink, tsink] at usink
  exact ⟨t, u, ht, tidx, rfl, tsink, hu, usink⟩

/-! The shared accumulator (R177). -/

/-- The CRC a message goes on from after an `FRM.ENCODE` is the frame's, whatever bytes were fed before. -/
theorem runTrace_message_with_frmEncode (ts : Word) (x y z ang : Half) (a b : Byte) (s : State)
    (idle : s.idx.val = 23) :
    ∃ t : State, runTrace [.crcInit, .crcByte a, .frmEncode ts x y z ang, .crcByte b] s = .next t ∧
      t.acc = crcByte (crc16 ((encodePorts Config.hardware ts x y z ang).take 21)) b := by
  obtain ⟨t, ht, tacc, -⟩ := exec_frmEncode_next ts x y z ang (s.setAcc (crcByte crcInit a)) idle
  refine ⟨t.setAcc (crcByte t.acc b), ?_, ?_⟩
  · calc runTrace [.crcInit, .crcByte a, .frmEncode ts x y z ang, .crcByte b] s
      _ = runTrace [.frmEncode ts x y z ang, .crcByte b] (s.setAcc (crcByte crcInit a)) := rfl
      _ = runTrace [.crcByte b] t := by rw [runTrace, ht]
      _ = .next (t.setAcc (crcByte t.acc b)) := rfl
  · rw [State.setAcc_acc, tacc, encodePorts, encodePacket_take]

/-- CRC commands write nothing but `ACC`, by induction on the trace. -/
theorem runTrace_crcCommands (t : List Instr) (s : State)
    (crcOnly : ∀ i ∈ t, i = .crcInit ∨ ∃ b : Byte, i = .crcByte b) :
    ∃ v : Half, runTrace t s = .next (s.setAcc v) := by
  induction t generalizing s with
  | nil => exact ⟨s.acc, rfl⟩
  | cons i t ih =>
    obtain ⟨command, commands⟩ := List.forall_mem_cons.1 crcOnly
    rcases command with rfl | ⟨b, rfl⟩
    · exact ih (s.setAcc crcInit) commands
    · exact ih (s.setAcc (crcByte s.acc b)) commands

/-- Settles O40: the two directions, and program P4 by evaluating the CRC its message goes on from. -/
theorem accumulatorIsShared : Obligations.AccumulatorIsShared := by
  refine ⟨runTrace_message_with_frmEncode, fun t s crcOnly => ?_, ?_⟩
  · obtain ⟨v, hv⟩ := runTrace_crcCommands t s crcOnly
    exact ⟨_, hv, rfl, rfl, rfl⟩
  · obtain ⟨t, ht, tacc⟩ := runTrace_message_with_frmEncode 0 200 0 1500 0 0x01 0x03 State.reset rfl
    refine ⟨t, ht, ?_⟩
    rw [tacc]
    decide +kernel

/-! What a complete run shows (R184). -/

theorem observation_next_eq_some_iff (s : State) (k : List Byte) (c : Half) :
    observation (.next s) = some (k, c) ↔ s.idx.val = 23 ∧ k = s.sink ∧ c = s.crcOut := by
  by_cases idle : s.idx.val = 23
  · simp only [observation, idle, if_true, Option.some.injEq, Prod.mk.injEq, true_and, eq_comm]
  · simp only [observation, idle, if_false, reduceCtorEq, false_and]

/-- Settles O58: a fault and a refusal show nothing, a next state shows itself when no frame is pending. -/
theorem completeRunIsObserved : Obligations.CompleteRunIsObserved := by
  intro o k c
  cases o with
  | next s =>
    rw [observation_next_eq_some_iff]
    exact ⟨fun shown => ⟨s, rfl, shown⟩, fun ⟨_, same, shown⟩ => Host.Outcome.next.inj same ▸ shown⟩
  | fault f => exact ⟨nofun, nofun⟩
  | refused r => exact ⟨nofun, nofun⟩

end Sys2Proof.Machine
